-- ==== Sys2Proof/Word.lean ====
section
/-! DEFINITION. The byte type of program streams. The engine's own values are unsigned integers
below `CORE_SIZE` (`10_state.md` R21) and are computed exactly (`00_scope.md` R11), so they are
`Nat`; only the record format outside the core is made of bytes (`20_memory.md` R61, R62). -/

namespace Sys2Proof

/-- One byte of a program stream (`30_encoding.md` R92). -/
abbrev Byte := BitVec 8

end Sys2Proof
end

