-- ==== Sys2Proof/Syntax.lean ====
section
/-! DEFINITION. The Instruction type (`10_state.md` R21, `30_encoding.md` R90, R91): six fields,
one constructor of `Instr` for each opcode, every opcode with the same five other fields. -/

namespace Sys2Proof

/-- The 15 opcodes, in the order of `30_encoding.md` R93. -/
inductive Opcode where
  | kil | frk | nop | mov | add | sub | mul | div | mod | jmp | jmz | jmn | beq | bne | blt
deriving DecidableEq, Repr

/-- The 7 field modifiers, in the order of `30_encoding.md` R94. -/
inductive Modifier where
  | a | b | ab | ba | f | x | i
deriving DecidableEq, Repr

/-- The 4 addressing modes, in the order of `30_encoding.md` R95. -/
inductive AddrMode where
  | imm | dir | ain | bin
deriving DecidableEq, Repr

/-- The five fields an Instruction has beside its opcode (R21). `aVal` and `bVal` are unsigned
integers; that they lie in `[0, S)` inside the core is `Instr.fitsCore` and an invariant. -/
structure Fields where
  mod : Modifier
  aMode : AddrMode
  bMode : AddrMode
  aVal : Nat
  bVal : Nat
deriving DecidableEq, Repr

/-- An Instruction (R21): one constructor per row of `opcode_table.json`. -/
inductive Instr where
  /-- R160: end this process. -/
  | kil (f : Fields)
  /-- R161: start a process at the A-operand's address. -/
  | frk (f : Fields)
  /-- R162: no operation. -/
  | nop (f : Fields)
  /-- R171: move. -/
  | mov (f : Fields)
  /-- R172: add. -/
  | add (f : Fields)
  /-- R173: subtract. -/
  | sub (f : Fields)
  /-- R174: multiply. -/
  | mul (f : Fields)
  /-- R175: divide. -/
  | div (f : Fields)
  /-- R176: remainder. -/
  | mod (f : Fields)
  /-- R191: jump. -/
  | jmp (f : Fields)
  /-- R193: jump if zero. -/
  | jmz (f : Fields)
  /-- R194: jump if not zero. -/
  | jmn (f : Fields)
  /-- R196: skip if equal. -/
  | beq (f : Fields)
  /-- R197: skip if not equal. -/
  | bne (f : Fields)
  /-- R198: skip if the destination is greater than the source. -/
  | blt (f : Fields)
deriving DecidableEq, Repr

/-- The `op` field of an Instruction. -/
def Instr.op : Instr → Opcode
  | .kil _ => .kil
  | .frk _ => .frk
  | .nop _ => .nop
  | .mov _ => .mov
  | .add _ => .add
  | .sub _ => .sub
  | .mul _ => .mul
  | .div _ => .div
  | .mod _ => .mod
  | .jmp _ => .jmp
  | .jmz _ => .jmz
  | .jmn _ => .jmn
  | .beq _ => .beq
  | .bne _ => .bne
  | .blt _ => .blt

/-- The five other fields of an Instruction. -/
def Instr.fields : Instr → Fields
  | .kil f => f
  | .frk f => f
  | .nop f => f
  | .mov f => f
  | .add f => f
  | .sub f => f
  | .mul f => f
  | .div f => f
  | .mod f => f
  | .jmp f => f
  | .jmz f => f
  | .jmn f => f
  | .beq f => f
  | .bne f => f
  | .blt f => f

/-- The Instruction with opcode `op` and fields `f`. -/
def Opcode.instr : Opcode → Fields → Instr
  | .kil, f => .kil f
  | .frk, f => .frk f
  | .nop, f => .nop f
  | .mov, f => .mov f
  | .add, f => .add f
  | .sub, f => .sub f
  | .mul, f => .mul f
  | .div, f => .div f
  | .mod, f => .mod f
  | .jmp, f => .jmp f
  | .jmz, f => .jmz f
  | .jmn, f => .jmn f
  | .beq, f => .beq f
  | .bne, f => .bne f
  | .blt, f => .blt f

/-- The Instruction `DEFAULT` (`10_state.md` R22): `KIL` with every field at its zero tag. -/
def Instr.dflt : Instr := .kil ⟨.a, .imm, .imm, 0, 0⟩

end Sys2Proof
end

