-- ==== Sys2Proof/WellFormed.lean ====
section
/-! DEFINITION. When an Instruction is well formed. The types already rule out every reserved tag
(`30_encoding.md` R91, R101); what is left is the range of the two value fields: below `2^32` to
stand in a record (R96, R97), below `S` to stand in the core (`10_state.md` R21, R35 (a)). -/

namespace Sys2Proof

/-- Both value fields fit a 4-byte record field (`30_encoding.md` R96). -/
abbrev Instr.encodable (i : Instr) : Prop :=
  i.fields.aVal < 2 ^ 32 ∧ i.fields.bVal < 2 ^ 32

/-- Both value fields lie in `[0, S)` (`10_state.md` R21). -/
abbrev Instr.fitsCore (size : Nat) (i : Instr) : Prop :=
  i.fields.aVal < size ∧ i.fields.bVal < size

end Sys2Proof
end

