-- ==== Sys2Proof/Decode.lean ====
section
/-! DEFINITION. The 12-byte record REC12 (`30_encoding.md` R92 to R101): the decoder, total on any
bytes and rejecting by name, then the encoder, both written from the tag tables of R93 to R95. -/

namespace Sys2Proof

/-- Why a byte sequence is no record (R99, R100). The names are the model's (log 22). -/
inductive DecodeError where
  /-- Fewer or more than 12 bytes were given. -/
  | wrongLength
  /-- Byte 0 is above 14 (R93). -/
  | opcodeTag
  /-- Byte 1 is above 6 (R94). -/
  | modifierTag
  /-- Byte 2 is above 3 (R95). -/
  | aModeTag
  /-- Byte 3 is above 3 (R95). -/
  | bModeTag
deriving DecidableEq, Repr

/-- The opcode a tag names (R93). -/
def opcodeOfTag : Nat → Option Opcode
  | 0 => some .kil
  | 1 => some .frk
  | 2 => some .nop
  | 3 => some .mov
  | 4 => some .add
  | 5 => some .sub
  | 6 => some .mul
  | 7 => some .div
  | 8 => some .mod
  | 9 => some .jmp
  | 10 => some .jmz
  | 11 => some .jmn
  | 12 => some .beq
  | 13 => some .bne
  | 14 => some .blt
  | _ => none

/-- The modifier a tag names (R94). -/
def modifierOfTag : Nat → Option Modifier
  | 0 => some .a
  | 1 => some .b
  | 2 => some .ab
  | 3 => some .ba
  | 4 => some .f
  | 5 => some .x
  | 6 => some .i
  | _ => none

/-- The addressing mode a tag names (R95). -/
def modeOfTag : Nat → Option AddrMode
  | 0 => some .imm
  | 1 => some .dir
  | 2 => some .ain
  | 3 => some .bin
  | _ => none

/-- Four bytes as an unsigned number, least significant byte first (R96). -/
def valueOfBytes (b0 b1 b2 b3 : Byte) : Nat :=
  b0.toNat + 256 * b1.toNat + 65536 * b2.toNat + 16777216 * b3.toNat

/-- The Instruction named by four tags and two values (R99). -/
def instrOfTags (op mod aMode bMode aVal bVal : Nat) : Except DecodeError Instr :=
  match opcodeOfTag op with
  | none => .error .opcodeTag
  | some o =>
    match modifierOfTag mod with
    | none => .error .modifierTag
    | some m =>
      match modeOfTag aMode with
      | none => .error .aModeTag
      | some am =>
        match modeOfTag bMode with
        | none => .error .bModeTag
        | some bm => .ok (o.instr ⟨m, am, bm, aVal, bVal⟩)

/-- `Decode(b)` (R99). -/
def decode : List Byte → Except DecodeError Instr
  | [b0, b1, b2, b3, b4, b5, b6, b7, b8, b9, b10, b11] =>
    instrOfTags b0.toNat b1.toNat b2.toNat b3.toNat
      (valueOfBytes b4 b5 b6 b7) (valueOfBytes b8 b9 b10 b11)
  | _ => .error .wrongLength

/-- `DecodeProgram(bytes)` (R100): records from the front until fewer than 12 bytes remain or a
record is malformed; stopping is no error, and the bytes from there on are ignored. -/
def decodeProgram : List Byte → List Instr
  | b0 :: b1 :: b2 :: b3 :: b4 :: b5 :: b6 :: b7 :: b8 :: b9 :: b10 :: b11 :: rest =>
    match decode [b0, b1, b2, b3, b4, b5, b6, b7, b8, b9, b10, b11] with
    | .ok i => i :: decodeProgram rest
    | .error _ => []
  | _ => []

/-- Byte `k` of the number `w` (`00_scope.md` R10: byte `k` stands at bits `8k+7 : 8k`). -/
def byteOf (w k : Nat) : Byte := BitVec.ofNat 8 (w / 256 ^ k)

/-- The 12 bytes of the record word `W` (`00_scope.md` R10), byte 0 first. -/
def recordBytes (w : Nat) : List Byte :=
  [byteOf w 0, byteOf w 1, byteOf w 2, byteOf w 3, byteOf w 4, byteOf w 5,
   byteOf w 6, byteOf w 7, byteOf w 8, byteOf w 9, byteOf w 10, byteOf w 11]

/-- The instruction the decoder reads from the record whose low `nbits` bits are those of `w` and
whose other bits are 0; none where the decoder rejects it. -/
def decodeTableWord (nbits w : Nat) : Option Instr :=
  match decode (recordBytes (w % 2 ^ nbits)) with
  | .ok i => some i
  | .error _ => none

/-! ### The encoder -/

/-- The tag of an opcode (R93). -/
def Opcode.tag : Opcode → Nat
  | .kil => 0
  | .frk => 1
  | .nop => 2
  | .mov => 3
  | .add => 4
  | .sub => 5
  | .mul => 6
  | .div => 7
  | .mod => 8
  | .jmp => 9
  | .jmz => 10
  | .jmn => 11
  | .beq => 12
  | .bne => 13
  | .blt => 14

/-- The tag of a modifier (R94). -/
def Modifier.tag : Modifier → Nat
  | .a => 0
  | .b => 1
  | .ab => 2
  | .ba => 3
  | .f => 4
  | .x => 5
  | .i => 6

/-- The tag of an addressing mode (R95). -/
def AddrMode.tag : AddrMode → Nat
  | .imm => 0
  | .dir => 1
  | .ain => 2
  | .bin => 3

/-- The four bytes of a value field, least significant first (R96). -/
def valueBytes (v : Nat) : List Byte :=
  [byteOf v 0, byteOf v 1, byteOf v 2, byteOf v 3]

/-- `Encode(i)` (R98): the four tags, then `aVal`, then `bVal`. -/
def encode (i : Instr) : List Byte :=
  [BitVec.ofNat 8 i.op.tag, BitVec.ofNat 8 i.fields.mod.tag,
   BitVec.ofNat 8 i.fields.aMode.tag, BitVec.ofNat 8 i.fields.bMode.tag]
    ++ valueBytes i.fields.aVal ++ valueBytes i.fields.bVal

/-- `EncodeProgram` (R98): the records of the elements in order. -/
def encodeProgram (is : List Instr) : List Byte :=
  is.flatMap encode

end Sys2Proof
end

