-- ==== Sys2Proof/Config.lean ====
section
/-! DEFINITION. The parameters of an engine (`00_scope.md` R6 to R9, `10_state.md` R32): fixed at
construction, changed by no command. -/

namespace Sys2Proof

/-- The base of the second displacement of an indirect operand (`00_scope.md` R9,
`40_operands_modifiers.md` R135): the decided value is `intermediate`. -/
inductive IndirectBase where
  | intermediate
  | executing
deriving DecidableEq, Repr

/-- The parameters a host chooses at construction. The two proof fields are R6's bound on
`CORE_SIZE`: an engine of size 0 does not exist, and a value field of a record has 32 bits. -/
structure Config where
  /-- `CORE_SIZE`, written `S` (R6). -/
  coreSize : Nat
  /-- `MAX_CYCLES` (R7). -/
  maxCycles : Nat
  /-- `MAX_PROCESSES` (R8), default 64. -/
  maxProcesses : Nat := 64
  /-- `INDIRECT_BASE` (R9), decided value `intermediate`. -/
  indirectBase : IndirectBase := .intermediate
  coreSize_pos : 0 < coreSize
  coreSize_le : coreSize ≤ 2 ^ 32
deriving DecidableEq, Repr

/-- The parameters of the model's `State.reset`. DESIGN CHOICE: `coreSize = 8000` (log 2) and
`maxCycles = 100000` (log 3), for which the spec gives no default; no statement rests on them. -/
def Config.chosen : Config where
  coreSize := 8000
  maxCycles := 100000
  coreSize_pos := by decide
  coreSize_le := by decide

end Sys2Proof
end

