-- ==== Sys2Proof/Machine/State.lean ====
section
/-! DEFINITION. The state of the engine (`10_state.md`): the tuple (`core`, `queue`, `loaded`,
`currentCycle`, `roundState`, `report`) of its opening paragraph, the read-only parameters, and
three fields of the model's own (`turn`, `pending`, `response`). -/

namespace Sys2Proof.Machine

/-- The two contestants (`00_scope.md` R5, section 7). -/
inductive Player where
  | p1 | p2
deriving DecidableEq, Repr

/-- The opponent. -/
def Player.other : Player → Player
  | .p1 => .p2
  | .p2 => .p1

/-- One value for each player (`queue[k]`, `loaded[k]`, `report[k]`). -/
structure PerPlayer (α : Type) where
  p1 : α
  p2 : α
deriving DecidableEq, Repr

/-- The value of player `k`. -/
def PerPlayer.get {α : Type} (v : PerPlayer α) : Player → α
  | .p1 => v.p1
  | .p2 => v.p2

/-- The values with player `k`'s replaced. -/
def PerPlayer.set {α : Type} (v : PerPlayer α) (k : Player) (x : α) : PerPlayer α :=
  match k with
  | .p1 => { v with p1 := x }
  | .p2 => { v with p2 := x }

/-- The round state (`10_state.md` R31). -/
inductive RoundState where
  | ongoing | draw | p1Won | p2Won
deriving DecidableEq, Repr

/-- The 2-bit output encoding of the round state (R31). -/
def RoundState.code : RoundState → BitVec 2
  | .ongoing => 0
  | .draw => 1
  | .p1Won => 2
  | .p2Won => 3

/-- The round state in which player `k` has won. -/
def RoundState.wonBy : Player → RoundState
  | .p1 => .p1Won
  | .p2 => .p2Won

/-- The outcome of a fork or kill in a step report (`10_state.md` R33). -/
inductive Event where
  | none | forked | forkDropped | killed
deriving DecidableEq, Repr

/-- The step report (R33). `reads` is a set: strictly rising, so that equal sets are equal lists
(log 14). -/
structure Report where
  valid : Bool
  execAddr : Nat
  execInstr : Instr
  reads : List Nat
  written : Option Nat
  procCount : Nat
  event : Event
deriving DecidableEq, Repr

/-- `EMPTY_REPORT` (R33). -/
def Report.empty : Report where
  valid := false
  execAddr := 0
  execInstr := Instr.dflt
  reads := []
  written := Option.none
  procCount := 0
  event := .none

/-- One listed cell of the core: its address and its Instruction (`20_memory.md` R61). -/
abbrev Cell := Nat × Instr

/-- The questions a host may ask (`44_host_commands_scheduler.md` R215, R216). -/
inductive Query where
  | roundState
  | currentCycle
  | isLoaded (k : Player)
  | processCount (k : Player)
  | report (k : Player)
  | peek (a : Nat)
deriving DecidableEq, Repr

/-- The commands a host may issue (R210 to R216, R220). -/
inductive Command where
  | reset
  | loadProgram (program : List Instr) (offset : Int) (player : Player)
  | loadBinary (bytes : List Byte) (offset : Int) (player : Player)
  | executeCycle
  | clearReports
  | observe (q : Query)
deriving DecidableEq, Repr

/-- The load errors (`60_exceptions.md` R292). -/
inductive LoadError where
  | tooManyInstructions
  | alreadyLoaded
deriving DecidableEq, Repr

/-- What a command returns to the host (R210). -/
inductive Response where
  /-- The command was performed and returns no value (`reset`, `loadProgram`, `clearReports`). -/
  | done
  /-- A load failed (R211). -/
  | loadError (e : LoadError)
  /-- A round state (`executeCycle`, `roundState()`). -/
  | round (r : RoundState)
  /-- A number (`currentCycle()`, `processCount(k)`). -/
  | count (n : Nat)
  /-- A bit (`isLoadedP1()`, `isLoadedP2()`). -/
  | flag (b : Bool)
  /-- A step report (`report(k)`). -/
  | report (r : Report)
  /-- A cell (`peek(a)`). -/
  | cell (i : Instr)
deriving DecidableEq, Repr

/-- Why a step stops. Neither reason can arise for a program in a state reached from reset
(`60_exceptions.md` R295, `20_memory.md` R63); both are safe, for the model stops where the spec
calls the situation a contract violation or inexpressible (logs 10, 11). -/
inductive Fault where
  /-- A process was to be popped from an empty queue (R295: "fatal, not recoverable"); raised by a
  process step. -/
  | emptyQueue
  /-- An address is not in `[0, S)` (R24, R216); raised by a process step whose queue entry is
  outside the core and by `peek`. -/
  | outOfCore
deriving DecidableEq, Repr

/-- Why a meaning is refused. -/
inductive Refusal where
  /-- Raised by `exec` for an instruction without a meaning; no arm raises it. Safe. -/
  | notModelled (mnemonic : String)
deriving DecidableEq, Repr

/-- The whole state of the engine. -/
structure State where
  /-- The parameters: read-only, not state in the spec (R32, R37; log 1). -/
  cfg : Config
  /-- The core (R23): the cells that differ from `DEFAULT`, addresses strictly rising (log 12). -/
  core : List Cell
  /-- The process queues, front first; each entry is one process's program counter (R25, R27). -/
  queue : PerPlayer (List Nat)
  /-- The load flags (R30). -/
  loaded : PerPlayer Bool
  /-- The cycle counter (R29). -/
  currentCycle : Nat
  /-- The round state (R31). -/
  roundState : RoundState
  /-- The step reports (R33). -/
  report : PerPlayer Report
  /-- The MODEL's own: the player whose front process `exec` steps (log 9). -/
  turn : Player
  /-- The MODEL's own: the commands the host has issued and the engine has yet to perform, first
  to perform first (log 7). -/
  pending : List Command
  /-- The MODEL's own: what the last command `step` performed returned (log 8). -/
  response : Option Response
deriving DecidableEq, Repr

/-- The state after construction or `reset` with the given parameters (R36, `70_reset_and_hazards.md`
R330): every cell `DEFAULT`, no process, nothing loaded, cycle 0, `ONGOING`, empty reports. -/
def State.resetWith (cfg : Config) : State where
  cfg := cfg
  core := []
  queue := ⟨[], []⟩
  loaded := ⟨false, false⟩
  currentCycle := 0
  roundState := .ongoing
  report := ⟨Report.empty, Report.empty⟩
  turn := .p1
  pending := []
  response := none

/-- The machine right after reset, with the parameters of `Config.chosen` (logs 2 to 5). -/
def State.reset : State := State.resetWith Config.chosen

end Sys2Proof.Machine
end

