-- ==== Sys2Proof/Machine/Ops.lean ====
section
/-! DEFINITION. The named operations of `00_scope.md` R11 to R13: cursor arithmetic, cell and field
access to the core, the process queues; then taking the engine's one run-time fault. -/

namespace Sys2Proof.Machine

/-! ### Modular arithmetic (R11) -/

/-- `fmod(x, S)`, floor modulo (R11). -/
def fmod (x : Int) (size : Nat) : Nat := (x % (size : Int)).toNat

/-- `a (+) n` (R11): the cursor `a` moved by `n` cells round a core of `size` cells. -/
def wrap (size a : Nat) (n : Int) : Nat := fmod ((a : Int) + n) size

/-! ### The two value fields of an Instruction (`10_state.md` R21) -/

/-- The name of a value field. -/
inductive Field where
  | aVal | bVal
deriving DecidableEq, Repr

/-- `v.aVal` or `v.bVal`. -/
def readField (i : Instr) : Field → Nat
  | .aVal => i.fields.aVal
  | .bVal => i.fields.bVal

/-- The Instruction with one value field replaced and the other five fields as they were (R12). -/
def setField (i : Instr) (d : Field) (v : Nat) : Instr :=
  match d with
  | .aVal => i.op.instr { i.fields with aVal := v }
  | .bVal => i.op.instr { i.fields with bVal := v }

/-- The Instruction with both values reduced modulo `size` (`44_host_commands_scheduler.md` R211). -/
def normalize (size : Nat) (i : Instr) : Instr :=
  i.op.instr { i.fields with aVal := fmod i.fields.aVal size, bVal := fmod i.fields.bVal size }

/-! ### The core (R12, `20_memory.md` R61) -/

/-- The cell at address `a`: an unlisted address holds `DEFAULT` (`10_state.md` R36). -/
def coreRead : List Cell → Nat → Instr
  | [], _ => Instr.dflt
  | (b, i) :: m, a => if b = a then i else coreRead m a

/-- The cells other than that at `a`. -/
def coreErase (m : List Cell) (a : Nat) : List Cell :=
  m.filter fun c => c.1 ≠ a

/-- The cells with `(a, i)` put before the first listed address above `a`. -/
def coreInsert : List Cell → Nat → Instr → List Cell
  | [], a, i => [(a, i)]
  | (b, j) :: m, a, i => if a < b then (a, i) :: (b, j) :: m else (b, j) :: coreInsert m a i

/-- The core with the cell at `a` replaced; writing `DEFAULT` unlists the cell. -/
def coreWrite (m : List Cell) (a : Nat) (i : Instr) : List Cell :=
  if i = Instr.dflt then coreErase m a else coreInsert (coreErase m a) a i

/-- The canonical form of the core: addresses strictly rising, no entry `DEFAULT`. -/
abbrev CoreWf (m : List Cell) : Prop :=
  (m.map Prod.fst).Pairwise (· < ·) ∧ ∀ c ∈ m, c.2 ≠ Instr.dflt

/-- `MemRead(a, cell)` (R12). -/
def State.readCell (s : State) (a : Nat) : Instr := coreRead s.core a

/-- `MemWrite(a, cell, i)` (R12). -/
def State.writeCell (s : State) (a : Nat) (i : Instr) : State :=
  { s with core := coreWrite s.core a i }

/-- `MemWrite(a, d, v)` (R12): one value field of the cell at `a`. -/
def State.writeField (s : State) (a : Nat) (d : Field) (v : Nat) : State :=
  s.writeCell a (setField (s.readCell a) d v)

/-! ### The process queues (R13) -/

/-- `len(k)`. -/
def State.processCount (s : State) (k : Player) : Nat := (s.queue.get k).length

/-- `popFront(k)`: the front entry and the state without it; none on an empty queue. -/
def State.popFront (s : State) (k : Player) : Option (Nat × State) :=
  match s.queue.get k with
  | [] => none
  | p :: q => some (p, { s with queue := s.queue.set k q })

/-- `pushBack(k, a)`. -/
def State.pushBack (s : State) (k : Player) (a : Nat) : State :=
  { s with queue := s.queue.set k (s.queue.get k ++ [a]) }

/-- The instruction the front process of player `k` executes next
(`40_operands_modifiers.md` R131), or why there is none. -/
def State.fetch (s : State) (k : Player) : Except Fault Instr :=
  match s.queue.get k with
  | [] => .error .emptyQueue
  | p :: _ => if p < s.cfg.coreSize then .ok (s.readCell p) else .error .outOfCore

/-! ### Step reports (`10_state.md` R33) -/

/-- The set with the address `a` added; a set is a strictly rising list (log 14). -/
def insertAddr (a : Nat) : List Nat → List Nat
  | [] => [a]
  | b :: l => if a < b then a :: b :: l else if a = b then b :: l else b :: insertAddr a l

/-- The set of the addresses of a list. -/
def addrSet (l : List Nat) : List Nat := l.foldr insertAddr []

/-- The state with player `k`'s report replaced (R141). -/
def State.setReport (s : State) (k : Player) (r : Report) : State :=
  { s with report := s.report.set k r }

/-! ### How an instruction ends (`40_operands_modifiers.md` R140) -/

/-- What executing an opcode leaves: the state, the address written if any, the fork or kill
outcome (R141). -/
structure Effect where
  state : State
  written : Option Nat
  event : Event

/-- The stepped process is re-enqueued once, at `target` (R13). -/
def continueAt (written : Option Nat) (target : Nat) (s : State) : Effect :=
  ⟨s.pushBack s.turn target, written, .none⟩

/-- The stepped process is not re-enqueued (R14): what `KIL` does (`41_process_control.md` R160),
and TAKING the fault `DivideByZero` (`60_exceptions.md` R291, R302): nothing is saved, no handler
runs, no mode changes. There is no return from it (R303). -/
def killProcess (written : Option Nat) (s : State) : Effect :=
  ⟨s, written, .killed⟩

/-! ### Outcomes in sequence -/

/-- Go on with `g` after a next state; a fault or a refusal ends the sequence. -/
def andThen {α β : Type} (o : Host.Outcome α Fault Refusal)
    (g : α → Host.Outcome β Fault Refusal) : Host.Outcome β Fault Refusal :=
  match o with
  | .next a => g a
  | .fault r => .fault r
  | .refused r => .refused r

end Sys2Proof.Machine
end

