-- ==== Sys2Proof/Machine/Operands.lean ====
section
/-! DEFINITION. Operand resolution, operand values and field modifiers
(`40_operands_modifiers.md` R132 to R139, R142). -/

namespace Sys2Proof.Machine

/-! ### Addressing modes -/

/-- The operand address an indirect operand reaches from its intermediate cell `t` (R135, R136):
the displacement is counted from `t`, or from the executing cell `p` where the configuration
switch `INDIRECT_BASE` says so (`00_scope.md` R9, log 5). -/
def indirect (cfg : Config) (p t disp : Nat) : Nat :=
  match cfg.indirectBase with
  | .intermediate => wrap cfg.coreSize t disp
  | .executing => wrap cfg.coreSize p disp

/-- `Resolve(p, mode, v)` (R132): the operand address and the intermediate addresses read. -/
def resolve (cfg : Config) (core : List Cell) (p : Nat) (mode : AddrMode) (v : Nat) :
    Nat × List Nat :=
  match mode with
  | .imm => (p, [])
  | .dir => (wrap cfg.coreSize p v, [])
  | .ain =>
    let t := wrap cfg.coreSize p v
    (indirect cfg p t (readField (coreRead core t) .aVal), [t])
  | .bin =>
    let t := wrap cfg.coreSize p v
    (indirect cfg p t (readField (coreRead core t) .bVal), [t])

/-- The operands of one step (R130): the executing address, the two operand addresses, the
addresses read, and the copies of the two operand cells (R137). -/
structure Operands where
  p : Nat
  ps : Nat
  pd : Nat
  reads : List Nat
  src : Instr
  dst : Instr
deriving DecidableEq, Repr

/-- The operands of an instruction with fields `f` executing at `p`, all read before anything is
written (R130, R137, `20_memory.md` R71). -/
def operandsOf (f : Fields) (p : Nat) (s : State) : Operands :=
  let ra := resolve s.cfg s.core p f.aMode f.aVal
  let rb := resolve s.cfg s.core p f.bMode f.bVal
  { p := p
    ps := ra.1
    pd := rb.1
    reads := addrSet (ra.2 ++ [ra.1] ++ rb.2 ++ [rb.1])
    src := s.readCell ra.1
    dst := s.readCell rb.1 }

/-! ### Modifiers -/

/-- `Pairs(mod)` (R138): the (source field, destination field) pairs a modifier selects. -/
def pairs : Modifier → List (Field × Field)
  | .a => [(.aVal, .aVal)]
  | .b => [(.bVal, .bVal)]
  | .ab => [(.aVal, .bVal)]
  | .ba => [(.bVal, .aVal)]
  | .f => [(.aVal, .aVal), (.bVal, .bVal)]
  | .x => [(.aVal, .bVal), (.bVal, .aVal)]
  | .i => [(.aVal, .aVal), (.bVal, .bVal)]

/-- `DstFields(mod)` (R139): the destination fields in `Pairs(mod)`. -/
def dstFields (m : Modifier) : List Field := (pairs m).map Prod.snd

end Sys2Proof.Machine
end

