-- ==== Sys2Proof/Machine/Flags.lean ====
section
/-! DEFINITION. The engine has no flags (`10_state.md` R28): a conditional instruction tests fields
of core cells in its own step. This file holds those tests (`43_control_transfer.md`). -/

namespace Sys2Proof.Machine

/-- The test of `JMZ` (R193): every selected field of `dst` is zero. -/
def allZero (m : Modifier) (dst : Instr) : Bool :=
  (dstFields m).all fun d => readField dst d == 0

/-- The test of `JMN` (R194): every selected field of `dst` is non-zero. -/
def allNonZero (m : Modifier) (dst : Instr) : Bool :=
  (dstFields m).all fun d => readField dst d != 0

/-- `Equal(mod, src, dst)` (R195): whole Instructions for `.I`, else every selected pair. -/
def equalOperands (m : Modifier) (src dst : Instr) : Bool :=
  match m with
  | .i => src == dst
  | m => (pairs m).all fun q => readField src q.1 == readField dst q.2

/-- The test of `BLT` (R198): every selected field of `dst` is greater than its field of `src`. -/
def allGreater (m : Modifier) (src dst : Instr) : Bool :=
  (pairs m).all fun q => decide (readField src q.1 < readField dst q.2)

end Sys2Proof.Machine
end

