-- ==== Sys2Proof/Machine/ProcessStep.lean ====
section
/-! DEFINITION. What the step of every instruction shares (`40_operands_modifiers.md` R130, R140,
R141): pop, resolve, execute, report; and the shared shape of the data instructions
(`42_data_arithmetic.md` R170) and of the control transfers (`43_control_transfer.md` R190). -/

namespace Sys2Proof.Machine

/-- The report a step leaves (R141). -/
def stepReport (i : Instr) (o : Operands) (k : Player) (e : Effect) : Report where
  valid := true
  execAddr := o.p
  execInstr := i
  reads := o.reads
  written := e.written
  procCount := e.state.processCount k
  event := e.event

/-- One step of the front process of the player on turn, executing `i` (R130). `effect` is what the
opcode does once the operands are read and the process is popped. -/
def processStep (i : Instr) (effect : Operands → State → Effect) (s : State) :
    Host.Outcome State Fault Refusal :=
  match s.popFront s.turn with
  | none => .fault .emptyQueue
  | some (p, popped) =>
    if p < s.cfg.coreSize then
      let o := operandsOf i.fields p popped
      let e := effect o popped
      .next (e.state.setReport s.turn (stepReport i o s.turn e))
    else .fault .outOfCore

/-- `p (+) n` in the core of `s`. -/
def State.after (s : State) (p : Nat) (n : Int) : Nat := wrap s.cfg.coreSize p n

/-! ### Data instructions (R170) -/

/-- What a data instruction computes for one pair, from `CORE_SIZE`, `dst.df` and `src.sf`; none
where that field is skipped (R175). -/
abbrev FieldOp := Nat → Nat → Nat → Option Nat

/-- The value for one (source field, destination field) pair. -/
def pairValue (g : FieldOp) (size : Nat) (o : Operands) (q : Field × Field) : Option Nat :=
  g size (readField o.dst q.2) (readField o.src q.1)

/-- Write the value of every pair whose field is not skipped, in order, all inputs from the copies
`src` and `dst` (R138, R170). -/
def writePairs (g : FieldOp) (size : Nat) (o : Operands) : List (Field × Field) → State → State
  | [], s => s
  | q :: qs, s =>
    match pairValue g size o q with
    | some v => writePairs g size o qs (s.writeField o.pd q.2 v)
    | none => writePairs g size o qs s

/-- The shape of the data instructions (R170, R175): write the selected fields; then continue at
`p (+) 1`, or be killed if a field was skipped. `written` is `pd` if a field was written (R141). -/
def dataEffect (g : FieldOp) (m : Modifier) (o : Operands) (s : State) : Effect :=
  let vs := (pairs m).map (pairValue g s.cfg.coreSize o)
  let written := if vs.any Option.isSome then some o.pd else none
  let t := writePairs g s.cfg.coreSize o (pairs m) s
  if vs.any Option.isNone then killProcess written t else continueAt written (t.after o.p 1) t

/-! ### Control transfers (R190) -/

/-- Continue at `target` if `taken`, else at `p (+) 1`; nothing is written (R190). -/
def branchEffect (taken : Bool) (target : Nat) (o : Operands) (s : State) : Effect :=
  continueAt none (if taken then target else s.after o.p 1) s

end Sys2Proof.Machine
end

