-- ==== Sys2Proof/Machine/ControlTransfer.lean ====
section
/-! DEFINITION. The control transfers JMP, JMZ, JMN, BEQ, BNE, BLT (`43_control_transfer.md`). -/

namespace Sys2Proof.Machine

/-- `JMP` (R191): continue at `ps`. -/
def execJmp (f : Fields) (s : State) : Host.Outcome State Fault Refusal :=
  processStep (.jmp f) (fun o t => continueAt none o.ps t) s

/-- `JMZ` (R193): continue at `ps` if the selected fields of `dst` are all zero. -/
def execJmz (f : Fields) (s : State) : Host.Outcome State Fault Refusal :=
  processStep (.jmz f) (fun o t => branchEffect (allZero f.mod o.dst) o.ps o t) s

/-- `JMN` (R194): continue at `ps` if the selected fields of `dst` are all non-zero. -/
def execJmn (f : Fields) (s : State) : Host.Outcome State Fault Refusal :=
  processStep (.jmn f) (fun o t => branchEffect (allNonZero f.mod o.dst) o.ps o t) s

/-- `BEQ` (R196): skip one instruction if the operands are equal. -/
def execBeq (f : Fields) (s : State) : Host.Outcome State Fault Refusal :=
  processStep (.beq f)
    (fun o t => branchEffect (equalOperands f.mod o.src o.dst) (t.after o.p 2) o t) s

/-- `BNE` (R197): skip one instruction if the operands are not equal. -/
def execBne (f : Fields) (s : State) : Host.Outcome State Fault Refusal :=
  processStep (.bne f)
    (fun o t => branchEffect (!equalOperands f.mod o.src o.dst) (t.after o.p 2) o t) s

/-- `BLT` (R198): skip one instruction if the destination is greater than the source. -/
def execBlt (f : Fields) (s : State) : Host.Outcome State Fault Refusal :=
  processStep (.blt f)
    (fun o t => branchEffect (allGreater f.mod o.src o.dst) (t.after o.p 2) o t) s

end Sys2Proof.Machine
end

