-- ==== Sys2Proof/Machine/DataArithmetic.lean ====
section
/-! DEFINITION. The data-movement and arithmetic instructions MOV, ADD, SUB, MUL, DIV, MOD
(`42_data_arithmetic.md`). The destination field is the left operand (R170). -/

namespace Sys2Proof.Machine

/-- The source field itself (R171). -/
def moveOp : FieldOp := fun _ _ src => some src

/-- `fmod(dst + src, S)` (R172). -/
def addOp : FieldOp := fun size dst src => some (fmod ((dst : Int) + src) size)

/-- `fmod(S + dst - src, S)` (R173). -/
def subOp : FieldOp := fun size dst src => some (fmod ((size : Int) + dst - src) size)

/-- `fmod(dst * src, S)`, the product exact (R174). -/
def mulOp : FieldOp := fun size dst src => some (fmod ((dst : Int) * src) size)

/-- `floor(dst / src)`; the field is skipped where the divisor is zero (R175). -/
def divOp : FieldOp := fun _ dst src => if src = 0 then none else some (dst / src)

/-- `dst - src * floor(dst / src)`; the field is skipped where the divisor is zero (R176). -/
def modOp : FieldOp := fun _ dst src => if src = 0 then none else some (dst - src * (dst / src))

/-- What `MOV` does (R171): `.I` copies all six fields, the other modifiers the selected values. -/
def moveEffect (m : Modifier) (o : Operands) (s : State) : Effect :=
  match m with
  | .i => continueAt (some o.pd) (s.after o.p 1) (s.writeCell o.pd o.src)
  | m => dataEffect moveOp m o s

/-- `MOV` (R171). -/
def execMov (f : Fields) (s : State) : Host.Outcome State Fault Refusal :=
  processStep (.mov f) (moveEffect f.mod) s

/-- `ADD` (R172). -/
def execAdd (f : Fields) (s : State) : Host.Outcome State Fault Refusal :=
  processStep (.add f) (dataEffect addOp f.mod) s

/-- `SUB` (R173). -/
def execSub (f : Fields) (s : State) : Host.Outcome State Fault Refusal :=
  processStep (.sub f) (dataEffect subOp f.mod) s

/-- `MUL` (R174). -/
def execMul (f : Fields) (s : State) : Host.Outcome State Fault Refusal :=
  processStep (.mul f) (dataEffect mulOp f.mod) s

/-- `DIV` (R175). -/
def execDiv (f : Fields) (s : State) : Host.Outcome State Fault Refusal :=
  processStep (.div f) (dataEffect divOp f.mod) s

/-- `MOD` (R176). -/
def execMod (f : Fields) (s : State) : Host.Outcome State Fault Refusal :=
  processStep (.mod f) (dataEffect modOp f.mod) s

end Sys2Proof.Machine
end

