-- ==== Sys2Proof/Machine/ProcessControl.lean ====
section
/-! DEFINITION. The process-control instructions KIL, FRK, NOP (`41_process_control.md`). -/

namespace Sys2Proof.Machine

/-- `KIL` (R160): the process dies. -/
def execKil (f : Fields) (s : State) : Host.Outcome State Fault Refusal :=
  processStep (.kil f) (fun _ t => killProcess none t) s

/-- What `FRK` does (R161): the continuation first, then the child at `ps` if the player's live
count, the continuation counted, is below the cap; else the fork is dropped. -/
def forkEffect (o : Operands) (s : State) : Effect :=
  let t := s.pushBack s.turn (s.after o.p 1)
  if t.processCount t.turn < t.cfg.maxProcesses then ⟨t.pushBack t.turn o.ps, none, .forked⟩
  else ⟨t, none, .forkDropped⟩

/-- `FRK` (R161). -/
def execFrk (f : Fields) (s : State) : Host.Outcome State Fault Refusal :=
  processStep (.frk f) forkEffect s

/-- `NOP` (R162): continue at `p (+) 1`. -/
def execNop (f : Fields) (s : State) : Host.Outcome State Fault Refusal :=
  processStep (.nop f) (fun o t => continueAt none (t.after o.p 1) t) s

end Sys2Proof.Machine
end

