-- ==== Sys2Proof/Machine/Dispatch.lean ====
section
/-! DEFINITION. The dispatch of `40_operands_modifiers.md` R140: one arm per opcode. -/

namespace Sys2Proof.Machine

def exec (i : Instr) (s : State) : Host.Outcome State Fault Refusal :=
  match i with
  | .kil f => Sys2Proof.Machine.execKil f s
  | .frk f => Sys2Proof.Machine.execFrk f s
  | .nop f => Sys2Proof.Machine.execNop f s
  | .mov f => Sys2Proof.Machine.execMov f s
  | .add f => Sys2Proof.Machine.execAdd f s
  | .sub f => Sys2Proof.Machine.execSub f s
  | .mul f => Sys2Proof.Machine.execMul f s
  | .div f => Sys2Proof.Machine.execDiv f s
  | .mod f => Sys2Proof.Machine.execMod f s
  | .jmp f => Sys2Proof.Machine.execJmp f s
  | .jmz f => Sys2Proof.Machine.execJmz f s
  | .jmn f => Sys2Proof.Machine.execJmn f s
  | .beq f => Sys2Proof.Machine.execBeq f s
  | .bne f => Sys2Proof.Machine.execBne f s
  | .blt f => Sys2Proof.Machine.execBlt f s

end Sys2Proof.Machine
end

