-- ==== Sys2Proof/Machine/Scheduler.lean ====
section
/-! DEFINITION. The two-player scheduler: `Step(k)` (`40_operands_modifiers.md` R130) and
`executeCycle` (`44_host_commands_scheduler.md` R220 to R225). -/

namespace Sys2Proof.Machine

/-- `Step(k)` (R130): fetch the front process's instruction and execute it. `turn` tells `exec` the
player and is put back afterwards (log 9). -/
def stepProcess (k : Player) (s : State) : Host.Outcome State Fault Refusal :=
  match s.fetch k with
  | .error r => .fault r
  | .ok i => andThen (exec i { s with turn := k }) fun t => .next { t with turn := s.turn }

/-- Player `k`'s turn in a cycle (R221): a player that is not loaded has none; a player whose queue
is empty right after its step loses at once (R222, R223). -/
def playerTurn (k : Player) (s : State) : Host.Outcome State Fault Refusal :=
  if s.loaded.get k then
    andThen (stepProcess k s) fun t =>
      .next (if t.queue.get k = [] then { t with roundState := .wonBy k.other } else t)
  else .next s

/-- `executeCycle()` (R220) on the state; its result is the new round state. -/
def executeCycle (s : State) : Host.Outcome State Fault Refusal :=
  if s.roundState ≠ .ongoing ∨ s.cfg.maxCycles ≤ s.currentCycle then .next s
  else
    andThen (playerTurn .p1 { s with currentCycle := s.currentCycle + 1 }) fun s1 =>
      if s1.roundState ≠ .ongoing then .next s1
      else
        andThen (playerTurn .p2 s1) fun s2 =>
          .next (if s2.roundState = .ongoing ∧ s2.cfg.maxCycles ≤ s2.currentCycle
            then { s2 with roundState := .draw } else s2)

end Sys2Proof.Machine
end

