-- ==== Sys2Proof/Machine/HostCommands.lean ====
section
/-! DEFINITION. The host commands (`44_host_commands_scheduler.md` R210 to R216), construction
(`60_exceptions.md` R293) and the placing of a program's first instruction for `withFetchWord`. -/

namespace Sys2Proof.Machine

/-! ### Construction -/

/-- Why an engine cannot be constructed (`00_scope.md` R6, log 17). -/
inductive ConstructError where
  /-- `InvalidSize` (R6, R293): the core would have no cell. -/
  | invalidSize
  /-- The size is above R6's bound `2^32`; the name is the model's. -/
  | sizeAboveBound
deriving DecidableEq, Repr

/-- Construct an engine (R6, R293, `70_reset_and_hazards.md` R330). -/
def construct (size maxCycles : Nat) (maxProcesses : Nat := 64)
    (base : IndirectBase := .intermediate) : Except ConstructError State :=
  if h : 0 < size then
    if h' : size ≤ 2 ^ 32 then .ok (State.resetWith ⟨size, maxCycles, maxProcesses, base, h, h'⟩)
    else .error .sizeAboveBound
  else .error .invalidSize

/-! ### Commands -/

/-- Copy the Instructions to `o (+) j, o (+) (j+1), …`, values reduced modulo `S` (R211). -/
def copyProgram (o : Nat) : Nat → List Instr → State → State
  | _, [], s => s
  | j, i :: is, s =>
    copyProgram o (j + 1) is (s.writeCell (s.after o j) (normalize s.cfg.coreSize i))

/-- `loadProgram(instructions, offset, player)` (R211, R292; error order R301 (b)). -/
def loadProgram (is : List Instr) (offset : Int) (k : Player) (s : State) :
    Except LoadError State :=
  if s.cfg.coreSize < is.length then .error .tooManyInstructions
  else if s.loaded.get k then .error .alreadyLoaded
  else
    let o := fmod offset s.cfg.coreSize
    let t := (copyProgram o 0 is s).pushBack k o
    .ok { t with loaded := t.loaded.set k true }

/-- `loadProgram(bytes, offset, player)` (R212). -/
def loadBinary (bytes : List Byte) (offset : Int) (k : Player) (s : State) :
    Except LoadError State :=
  loadProgram (decodeProgram bytes) offset k s

/-- `reset()` (R213): the state of `10_state.md` R36 with the same parameters. The model's own
`pending` and `response` are not the engine's and stay (log 7). -/
def hostReset (s : State) : State :=
  { State.resetWith s.cfg with pending := s.pending, response := s.response }

/-- `clearReports()` (R214). -/
def clearReports (s : State) : State :=
  { s with report := ⟨Report.empty, Report.empty⟩ }

/-- The observers (R215) and `peek` (R216); an address outside the core is a fault (log 11). -/
def observe (q : Query) (s : State) : Host.Outcome Response Fault Refusal :=
  match q with
  | .roundState => .next (.round s.roundState)
  | .currentCycle => .next (.count s.currentCycle)
  | .isLoaded k => .next (.flag (s.loaded.get k))
  | .processCount k => .next (.count (s.processCount k))
  | .report k => .next (.report (s.report.get k))
  | .peek a => if a < s.cfg.coreSize then .next (.cell (s.readCell a)) else .fault .outOfCore

/-- A command that raises an error changes nothing (`00_scope.md` R14, R210). -/
def loadOutcome (s : State) : Except LoadError State → State × Response
  | .ok t => (t, .done)
  | .error e => (s, .loadError e)

/-- One command, from state and arguments to state and result (R210). -/
def perform (c : Command) (s : State) : Host.Outcome (State × Response) Fault Refusal :=
  match c with
  | .reset => .next (hostReset s, .done)
  | .loadProgram is offset k => .next (loadOutcome s (loadProgram is offset k s))
  | .loadBinary bytes offset k => .next (loadOutcome s (loadBinary bytes offset k s))
  | .executeCycle => andThen (executeCycle s) fun t => .next (t, .round t.roundState)
  | .clearReports => .next (clearReports s, .done)
  | .observe q => andThen (observe q s) fun r => .next (s, r)

/-! ### The machine's step -/

/-- The command the engine performs next, and the commands left: the first one the host has issued,
or `executeCycle` when none is pending (log 7). -/
def nextCommand (s : State) : Command × List Command :=
  match s.pending with
  | [] => (.executeCycle, [])
  | c :: cs => (c, cs)

/-- Perform the next command and keep its result in `response` (log 8). -/
def performNext (s : State) : Host.Outcome State Fault Refusal :=
  andThen (perform (nextCommand s).1 { s with pending := (nextCommand s).2 }) fun tr =>
    .next { tr.1 with response := some tr.2 }

/-! ### Placing an instruction where the next step fetches (logs 15, 16) -/

/-- The state in which the next step is a cycle whose player-1 turn executes `i`: `i` is stored, as
a load stores it (R211), where player 1's front process stands (a process at address 0 is seeded
if there is none); player 1 is loaded, the round is `ONGOING`, a cycle is left, no command is
pending. -/
def placeFirst (i : Instr) (s : State) : State :=
  let q := match s.queue.p1 with
    | [] => [0]
    | p :: q => if p < s.cfg.coreSize then p :: q else [0]
  let t := s.writeCell (q.headD 0) (normalize s.cfg.coreSize i)
  { t with
    queue := ⟨q, t.queue.p2⟩
    loaded := ⟨true, t.loaded.p2⟩
    roundState := .ongoing
    currentCycle := if t.currentCycle < t.cfg.maxCycles then t.currentCycle else 0
    pending := [] }

/-- `placeFirst` of the instruction the decoder reads from a table word; a word it rejects ends the
stream before any instruction (`30_encoding.md` R100) and places nothing. -/
def placeTableWord (nbits w : Nat) (s : State) : State :=
  match decodeTableWord nbits w with
  | some i => placeFirst i s
  | none => s

end Sys2Proof.Machine
end

