-- ==== Sys2Proof/Machine/Step.lean ====
section
/-! DEFINITION. One step of the machine: one host command, performed to completion
(`44_host_commands_scheduler.md` R210, `70_reset_and_hazards.md` R337). -/

namespace Sys2Proof.Machine

/-- One step: the next pending command, or `executeCycle` when none is pending (log 7). -/
def step (s : State) : Host.Outcome State Fault Refusal :=
  performNext s

/-- The state in which the next step runs the instruction of a table word (logs 15, 16). -/
def State.withFetchWord (s : State) (nbits w : Nat) : State :=
  placeTableWord nbits w s

end Sys2Proof.Machine
end

