-- ==== Sys2Proof/Machine/Tokens.lean ====
section
/-! DEFINITION. The tokens of assembly text (`30_encoding.md` R110 to R113): characters, tokens,
identifiers, integers, mnemonics and mode symbols, each as text and as what it names. -/

namespace Sys2Proof.Assembly

/-- A token, and a line of text, as characters. -/
abbrev Token := List Char

/-! ### From characters to tokens (R110) -/

/-- The line without its comment: everything from the first `;` on is removed (R110, R251). -/
def stripComment (line : List Char) : List Char := line.takeWhile (· != ';')

/-- The dropped separators: space, horizontal tab, carriage return (R110). -/
def isDropped (c : Char) : Bool := c == ' ' || c == '\t' || c == '\r'

/-- The kept separators, each a token by itself (R110). -/
def isKept (c : Char) : Bool := [':', '.', ',', '#', '$', '*', '@'].contains c

/-- The run of characters read so far, last one first, put as a token before `rest`. -/
def endRun (run : List Char) (rest : List Token) : List Token :=
  match run with
  | [] => rest
  | run => run.reverse :: rest

/-- The tokens of the characters left, with the run read so far (last character first). -/
def tokensFrom : List Char → List Char → List Token
  | [], run => endRun run []
  | c :: cs, run =>
    if isDropped c then endRun run (tokensFrom cs [])
    else if isKept c then endRun run ([c] :: tokensFrom cs [])
    else tokensFrom cs (c :: run)

/-- The tokens of a line (R110). -/
def tokenize (line : List Char) : List Token := tokensFrom (stripComment line) []

/-- The lines of a text, split at newline characters (log 19). -/
def splitLines : List Char → List (List Char)
  | [] => [[]]
  | c :: cs =>
    if c == '\n' then [] :: splitLines cs
    else
      match splitLines cs with
      | [] => [[c]]
      | l :: ls => (c :: l) :: ls

/-! ### Identifiers and integers (R111) -/

/-- `[0-9]`. -/
def isDigitChar (c : Char) : Bool := decide (48 ≤ c.toNat) && decide (c.toNat ≤ 57)

/-- `[A-Za-z_]`. -/
def isNameStart (c : Char) : Bool :=
  (decide (65 ≤ c.toNat) && decide (c.toNat ≤ 90)) ||
    (decide (97 ≤ c.toNat) && decide (c.toNat ≤ 122)) || c == '_'

/-- `[A-Za-z_][A-Za-z0-9_]*` (R111). -/
def isIdentifier : Token → Bool
  | [] => false
  | c :: cs => isNameStart c && cs.all fun d => isNameStart d || isDigitChar d

/-- The value of decimal digits read after a prior value. -/
def digitsValue (ds : List Char) (acc : Nat) : Nat :=
  ds.foldl (fun n d => 10 * n + (d.toNat - 48)) acc

/-- One or more digits as a number. -/
def parseDigits : Token → Option Nat
  | [] => none
  | ds => if ds.all isDigitChar then some (digitsValue ds 0) else none

/-- `-?[0-9]+`: decimal, an optional minus, any number of digits (R111, R114). -/
def parseInteger : Token → Option Int
  | '-' :: ds => (parseDigits ds).map fun n => -(n : Int)
  | ds => (parseDigits ds).map fun n => (n : Int)

/-! ### Mnemonics and symbols (R112, R113) -/

/-- An ASCII letter as a capital; any other character as it is (R112, log 19). -/
def upperChar (c : Char) : Char :=
  if 97 ≤ c.toNat ∧ c.toNat ≤ 122 then Char.ofNat (c.toNat - 32) else c

/-- The 15 opcodes (R93). -/
def allOpcodes : List Opcode :=
  [.kil, .frk, .nop, .mov, .add, .sub, .mul, .div, .mod, .jmp, .jmz, .jmn, .beq, .bne, .blt]

/-- The mnemonic of an opcode (R93, R112). -/
def opcodeName : Opcode → Token
  | .kil => ['K', 'I', 'L']
  | .frk => ['F', 'R', 'K']
  | .nop => ['N', 'O', 'P']
  | .mov => ['M', 'O', 'V']
  | .add => ['A', 'D', 'D']
  | .sub => ['S', 'U', 'B']
  | .mul => ['M', 'U', 'L']
  | .div => ['D', 'I', 'V']
  | .mod => ['M', 'O', 'D']
  | .jmp => ['J', 'M', 'P']
  | .jmz => ['J', 'M', 'Z']
  | .jmn => ['J', 'M', 'N']
  | .beq => ['B', 'E', 'Q']
  | .bne => ['B', 'N', 'E']
  | .blt => ['B', 'L', 'T']

/-- The 7 modifiers (R94). -/
def allModifiers : List Modifier := [.a, .b, .ab, .ba, .f, .x, .i]

/-- The mnemonic of a modifier (R94, R112). -/
def modifierName : Modifier → Token
  | .a => ['A']
  | .b => ['B']
  | .ab => ['A', 'B']
  | .ba => ['B', 'A']
  | .f => ['F']
  | .x => ['X']
  | .i => ['I']

/-- The opcode a token names, letter case ignored (R112). -/
def matchOpcode (t : Token) : Option Opcode :=
  allOpcodes.find? fun o => opcodeName o == t.map upperChar

/-- The modifier a token names, letter case ignored (R112). -/
def matchModifier (t : Token) : Option Modifier :=
  allModifiers.find? fun m => modifierName m == t.map upperChar

/-- The mode a symbol selects (R113). -/
def matchSymbol : Token → Option AddrMode
  | ['#'] => some .imm
  | ['$'] => some .dir
  | ['*'] => some .ain
  | ['@'] => some .bin
  | _ => none

/-- The symbol of a mode (R113). -/
def modeSymbol : AddrMode → Char
  | .imm => '#'
  | .dir => '$'
  | .ain => '*'
  | .bin => '@'

/-! ### The canonical spelling (R116) -/

/-- The decimal digits of `n` put before `rest`; `fuel` bounds the number of digits. -/
def decimalFrom : Nat → Nat → List Char → List Char
  | 0, _, rest => rest
  | fuel + 1, n, rest =>
    let digits := Char.ofNat (48 + n % 10) :: rest
    if n < 10 then digits else decimalFrom fuel (n / 10) digits

/-- `n` as an unsigned decimal. -/
def decimal (n : Nat) : List Char := decimalFrom (n + 1) n []

/-- `OP.MOD <sym>aVal, <sym>bVal` (R116). -/
def spell (i : Instr) : List Char :=
  opcodeName i.op ++ ['.'] ++ modifierName i.fields.mod ++ [' ', modeSymbol i.fields.aMode]
    ++ decimal i.fields.aVal ++ [',', ' ', modeSymbol i.fields.bMode] ++ decimal i.fields.bVal

end Sys2Proof.Assembly
end

