-- ==== Sys2Proof/Machine/Assembler.lean ====
section
/-! DEFINITION. The label-resolved instruction load: the two-pass assembler and the binary writer
(`45_assembler_load.md`). -/

namespace Sys2Proof.Assembly

/-- The error kinds of the assembler (R263). -/
inductive AsmError where
  | duplicateLabel
  | invalidInstruction
  | invalidModifier
  | missingArgument
  | malformedNumber
  | labelWithImmediate
  | unknownLabel
  | tooManyArguments
deriving DecidableEq, Repr

/-- The result of an assembly (R250): the Instructions in source order, or the set of (line number,
error kind), written in the order of the lines (R262, log 20). -/
inductive AssemblyResult where
  | ok (program : List Instr)
  | failed (errors : List (Nat × AsmError))
deriving DecidableEq, Repr

/-- The label table: each label with its instruction index. -/
abbrev Labels := List (Token × Nat)

/-- The index a label names; the first definition stands (R254). -/
def lookupLabel (labels : Labels) (name : Token) : Option Nat :=
  (labels.find? fun l => l.1 == name).map Prod.snd

/-! ### Pass 1 (R251 to R254) -/

/-- What pass 1 collects, each list in the order of the text. -/
structure Collected where
  labels : Labels
  /-- The instruction lines: source line number and tokens. -/
  lines : List (Nat × List Token)
  errors : List (Nat × AsmError)
deriving DecidableEq, Repr

/-- Collect an instruction line, unless it has no token (R252, R253). -/
def collectLine (n : Nat) (tokens : List Token) (c : Collected) : Collected :=
  match tokens with
  | [] => c
  | tokens => { c with lines := c.lines ++ [(n, tokens)] }

/-- Define a label as the current instruction index, or record a duplicate (R252, R254). -/
def defineLabel (n : Nat) (name : Token) (c : Collected) : Collected :=
  match lookupLabel c.labels name with
  | none => { c with labels := c.labels ++ [(name, c.lines.length)] }
  | some _ => { c with errors := c.errors ++ [(n, .duplicateLabel)] }

/-- Scan one line's tokens (R251 to R253). -/
def scanLine (n : Nat) (tokens : List Token) (c : Collected) : Collected :=
  match tokens with
  | name :: [':'] :: rest =>
    if isIdentifier name then collectLine n rest (defineLabel n name c)
    else collectLine n tokens c
  | tokens => collectLine n tokens c

/-- Scan the lines from line number `n` on. -/
def scanLines : Nat → List (List Char) → Collected → Collected
  | _, [], c => c
  | n, l :: ls, c => scanLines (n + 1) ls (scanLine n (tokenize l) c)

/-- Pass 1 over a text's lines, numbered from 1 (R250). -/
def firstPass (lines : List (List Char)) : Collected := scanLines 1 lines ⟨[], [], []⟩

/-! ### Pass 2 (R255 to R261) -/

/-- The modifier inferred when the text gives none (R255). -/
def defaultModifier (op : Opcode) (aMode bMode : AddrMode) : Modifier :=
  match op with
  | .kil | .nop => .f
  | .frk | .jmp | .jmz | .jmn => .b
  | .mov | .beq | .bne => if aMode = .imm then .ab else if bMode = .imm then .b else .i
  | .add | .sub | .mul | .div | .mod =>
    if aMode = .imm then .ab else if bMode = .imm then .b else .f
  | .blt => if aMode = .imm then .ab else .b

/-- The value of an operand token under a mode, in the instruction with index `idx` (R259, R256). -/
def operandValue (size : Nat) (labels : Labels) (idx : Nat) (mode : AddrMode) (t : Token) :
    Except AsmError Nat :=
  match parseInteger t with
  | some n => .ok (Machine.fmod n size)
  | none =>
    if isIdentifier t then
      if mode = .imm then .error .labelWithImmediate
      else
        match lookupLabel labels t with
        | some l => .ok (Machine.fmod ((l : Int) - idx) size)
        | none => .error .unknownLabel
    else .error .malformedNumber

/-- The mode of an operand, `DIR` when no symbol is written, and the tokens after it (R113). -/
def operandMode (tokens : List Token) : AddrMode × List Token :=
  match tokens with
  | [] => (.dir, [])
  | t :: rest =>
    match matchSymbol t with
    | some m => (m, rest)
    | none => (.dir, t :: rest)

/-- One operand: its mode, its value and the tokens after it (R259). -/
def parseOperand (size : Nat) (labels : Labels) (idx : Nat) (tokens : List Token) :
    Except AsmError (AddrMode × Nat × List Token) :=
  match (operandMode tokens).2 with
  | [] => .error .missingArgument
  | t :: rest =>
    match operandValue size labels idx (operandMode tokens).1 t with
    | .error e => .error e
    | .ok v => .ok ((operandMode tokens).1, v, rest)

/-- The explicit modifier, if any, and the tokens after it (R258). -/
def parseModifier (tokens : List Token) : Except AsmError (Option Modifier × List Token) :=
  match tokens with
  | ['.'] :: [] => .error .invalidModifier
  | ['.'] :: t :: rest =>
    match matchModifier t with
    | some m => .ok (some m, rest)
    | none => .error .invalidModifier
  | tokens => .ok (none, tokens)

/-- The B-field (R260) and the check for leftovers (R261). -/
def parseBField (size : Nat) (labels : Labels) (idx : Nat) (op : Opcode) (tokens : List Token) :
    Except AsmError (AddrMode × Nat) :=
  match tokens with
  | [] => if op = .frk ∨ op = .jmp then .ok (.imm, 0) else .error .missingArgument
  | [','] :: rest =>
    match parseOperand size labels idx rest with
    | .error e => .error e
    | .ok (m, v, []) => .ok (m, v)
    | .ok (_, _, _ :: _) => .error .tooManyArguments
  | _ :: _ => .error .missingArgument

/-- One instruction line (R257 to R261), the first error met standing for the line (R262).
DESIGN CHOICE (log 26): a second `identifier :` whose identifier is a mnemonic (`a: mov: 1, 2`) is
the `MalformedNumber` of R257 and R259; R252 says that it fails as an unknown mnemonic. -/
def decodeLine (size : Nat) (labels : Labels) (idx : Nat) (tokens : List Token) :
    Except AsmError Instr :=
  match tokens with
  | [] => .error .invalidInstruction
  | t :: rest =>
    match matchOpcode t with
    | none => .error .invalidInstruction
    | some op =>
      match parseModifier rest with
      | .error e => .error e
      | .ok (m, rest1) =>
        match parseOperand size labels idx rest1 with
        | .error e => .error e
        | .ok (aMode, aVal, rest2) =>
          match parseBField size labels idx op rest2 with
          | .error e => .error e
          | .ok (bMode, bVal) =>
            .ok (op.instr ⟨m.getD (defaultModifier op aMode bMode), aMode, bMode, aVal, bVal⟩)

/-- Pass 2 over the instruction lines from index `idx` on: the Instructions and the errors. -/
def secondPass (size : Nat) (labels : Labels) :
    Nat → List (Nat × List Token) → List Instr × List (Nat × AsmError)
  | _, [] => ([], [])
  | idx, (n, tokens) :: ls =>
    let r := secondPass size labels (idx + 1) ls
    match decodeLine size labels idx tokens with
    | .ok i => (i :: r.1, r.2)
    | .error e => (r.1, (n, e) :: r.2)

/-! ### The result -/

/-- An error put before the first one of a later or the same line (log 20). -/
def insertError (e : Nat × AsmError) : List (Nat × AsmError) → List (Nat × AsmError)
  | [] => [e]
  | e' :: es => if e.1 ≤ e'.1 then e :: e' :: es else e' :: insertError e es

/-- `Assemble` on a text's lines (R250, R262): all or nothing. -/
def assembleLines (size : Nat) (lines : List (List Char)) : AssemblyResult :=
  let c := firstPass lines
  let r := secondPass size c.labels 0 c.lines
  match c.errors ++ r.2 with
  | [] => .ok r.1
  | errors => .failed (errors.foldr insertError [])

/-- `Assemble(text, S)` (R250). -/
def assemble (size : Nat) (text : List Char) : AssemblyResult :=
  assembleLines size (splitLines text)

/-! ### The binary writer (R265) -/

/-- Why the writer fails. -/
inductive WriterError where
  /-- `NotAssembled` (R265). -/
  | notAssembled
deriving DecidableEq, Repr

/-- `toFile` after the assembly given, or before any (R265): the records of a successful assembly.
DEDUCED (log 21): after a failed assembly it fails, whatever came before. -/
def toFile : Option AssemblyResult → Except WriterError (List Byte)
  | some (.ok program) => .ok (encodeProgram program)
  | some (.failed _) => .error .notAssembled
  | none => .error .notAssembled

end Sys2Proof.Assembly
end

