-- ==== Sys2Proof/Safety.lean ====
section
/-! DEFINITION. What holds in every reachable state (`10_state.md` R26, R35; `44_host_commands_scheduler.md`
R224, R226), and which states are reachable. -/

namespace Sys2Proof.Machine

/-- The core is in canonical form (log 12), lists only addresses of the core, and every value in it
lies in `[0, S)` (R35 (a)). -/
abbrev State.CoreOk (s : State) : Prop :=
  CoreWf s.core ∧ ∀ c ∈ s.core, c.1 < s.cfg.coreSize ∧ c.2.fitsCore s.cfg.coreSize

/-- What holds of player `k`: its addresses lie in `[0, S)` (R35 (b)), its queue is within capacity
(R26), it has no process unless loaded (R35 (c)), it has one while loaded and the round goes on
(R35 (d)), and if it is loaded and has none its opponent has won (R35 (e)). -/
abbrev State.PlayerOk (s : State) (k : Player) : Prop :=
  (∀ a ∈ s.queue.get k, a < s.cfg.coreSize) ∧
  s.processCount k ≤ max 1 s.cfg.maxProcesses ∧
  (s.loaded.get k = false → s.processCount k = 0) ∧
  (s.loaded.get k = true → s.roundState = .ongoing → 1 ≤ s.processCount k) ∧
  (s.processCount k = 0 → s.loaded.get k = true → s.roundState = .wonBy k.other)

/-- What holds of the cycle counter: R35 (f), R35 (g), and that a round still going on has a cycle
left unless `MAX_CYCLES` is 0 (R224, R226). -/
abbrev State.CyclesOk (s : State) : Prop :=
  s.currentCycle ≤ s.cfg.maxCycles ∧
  (s.roundState = .draw → s.currentCycle = s.cfg.maxCycles) ∧
  (s.roundState = .ongoing → s.cfg.maxCycles = 0 ∨ s.currentCycle < s.cfg.maxCycles)

/-- The invariant of the machine between commands. -/
abbrev State.Inv (s : State) : Prop :=
  s.CoreOk ∧ s.PlayerOk .p1 ∧ s.PlayerOk .p2 ∧ s.CyclesOk

/-- The states a run can reach: from construction or reset with any parameters, by steps, the host
issuing any further commands at any time (R5, R210). -/
inductive State.Reachable : State → Prop where
  | start (cfg : Config) : State.Reachable (State.resetWith cfg)
  | issue (s : State) (cs : List Command) :
      State.Reachable s → State.Reachable { s with pending := s.pending ++ cs }
  | step (s t : State) : State.Reachable s → step s = .next t → State.Reachable t

/-- Player `k`'s front process stands at `p`, an address of the core, with `q` behind it: what a
process step needs (`40_operands_modifiers.md` R130). -/
abbrev State.Front (s : State) (k : Player) (p : Nat) (q : List Nat) : Prop :=
  s.queue.get k = p :: q ∧ p < s.cfg.coreSize

/-- The next command does not ask for a cell outside the core (`44_host_commands_scheduler.md`
R216). -/
abbrev State.AsksInCore (s : State) : Prop :=
  match (nextCommand s).1 with
  | .observe (.peek a) => a < s.cfg.coreSize
  | _ => True

end Sys2Proof.Machine
end

