-- ==== Sys2Proof/Certificates/Slice0/Obligations.lean ====
section
/-! DEFINITION. The statements for the provers. Namespace `Sys2Proof.Spec` holds the words they are
written in: the tables of the spec spelled out, and what a step leaves unchanged. -/

namespace Sys2Proof.Spec

open Sys2Proof.Machine

/-! ### Values and the tables of the modifiers -/

/-- The A-value of an Instruction. -/
abbrev av (i : Instr) : Nat := i.fields.aVal

/-- The B-value of an Instruction. -/
abbrev bv (i : Instr) : Nat := i.fields.bVal

/-- The Instruction with the two values given, `op`, `mod`, `aMode`, `bMode` as they were. -/
def withValues (i : Instr) (a b : Nat) : Instr :=
  i.op.instr { i.fields with aVal := a, bVal := b }

/-- The destination cell when every field a modifier selects becomes `g` of itself (left) and of its
source field (right): R138's table, spelled out. -/
def combine (g : Nat → Nat → Nat) (m : Modifier) (src dst : Instr) : Instr :=
  match m with
  | .a => withValues dst (g (av dst) (av src)) (bv dst)
  | .b => withValues dst (av dst) (g (bv dst) (bv src))
  | .ab => withValues dst (av dst) (g (bv dst) (av src))
  | .ba => withValues dst (g (av dst) (bv src)) (bv dst)
  | .f => withValues dst (g (av dst) (av src)) (g (bv dst) (bv src))
  | .x => withValues dst (g (av dst) (bv src)) (g (bv dst) (av src))
  | .i => withValues dst (g (av dst) (av src)) (g (bv dst) (bv src))

/-- Some divisor a modifier selects is zero (R175). -/
def ZeroDivisor (m : Modifier) (src : Instr) : Prop :=
  match m with
  | .a | .ab => av src = 0
  | .b | .ba => bv src = 0
  | .f | .x | .i => av src = 0 ∨ bv src = 0

/-- Every divisor a modifier selects is zero (R175). -/
def OnlyZeroDivisors (m : Modifier) (src : Instr) : Prop :=
  match m with
  | .a | .ab => av src = 0
  | .b | .ba => bv src = 0
  | .f | .x | .i => av src = 0 ∧ bv src = 0

/-- Every destination field a modifier selects satisfies `P` (R139, R193, R194). -/
def EveryField (P : Nat → Prop) (m : Modifier) (dst : Instr) : Prop :=
  match m with
  | .a | .ba => P (av dst)
  | .b | .ab => P (bv dst)
  | .f | .x | .i => P (av dst) ∧ P (bv dst)

/-- The comparison of `BEQ` and `BNE` by modifier (R195). -/
def Equal (m : Modifier) (src dst : Instr) : Prop :=
  match m with
  | .a => av src = av dst
  | .b => bv src = bv dst
  | .ab => av src = bv dst
  | .ba => bv src = av dst
  | .f => av src = av dst ∧ bv src = bv dst
  | .x => av src = bv dst ∧ bv src = av dst
  | .i => src = dst

/-- The comparison of `BLT` by modifier (R198). -/
def Greater (m : Modifier) (src dst : Instr) : Prop :=
  match m with
  | .a => av src < av dst
  | .b => bv src < bv dst
  | .ab => av src < bv dst
  | .ba => bv src < av dst
  | .f | .i => av src < av dst ∧ bv src < bv dst
  | .x => av src < bv dst ∧ bv src < av dst

/-! ### What a step leaves -/

/-- The address `p (+) n`. -/
abbrev plus (s : State) (p : Nat) (n : Int) : Nat := wrap s.cfg.coreSize p n

/-- `t` is `s` after the process at `p` of the player on turn, with `q` behind it, executed `i`:
`pushed` is enqueued behind `q`, the player's report is exactly that of R141, and nothing else but
the core may differ: no parameter, no load flag, not the cycle counter, not the round state, not
the opponent's queue or report, none of the model's own fields. -/
def Stepped (i : Instr) (s : State) (p : Nat) (q pushed : List Nat) (written : Option Nat)
    (event : Event) (t : State) : Prop :=
  t.cfg = s.cfg ∧ t.loaded = s.loaded ∧ t.currentCycle = s.currentCycle ∧
  t.roundState = s.roundState ∧ t.turn = s.turn ∧ t.pending = s.pending ∧
  t.response = s.response ∧
  t.queue.get s.turn = q ++ pushed ∧
  t.queue.get s.turn.other = s.queue.get s.turn.other ∧
  t.report.get s.turn.other = s.report.get s.turn.other ∧
  t.report.get s.turn =
    { valid := true, execAddr := p, execInstr := i, reads := (operandsOf i.fields p s).reads,
      written := written, procCount := (q ++ pushed).length, event := event }

/-- Every cell reads as before. -/
def SameCore (s t : State) : Prop := ∀ a, t.readCell a = s.readCell a

/-- The cell at `pd` reads `v`, every other cell as before. -/
def OnlyCell (s t : State) (pd : Nat) (v : Instr) : Prop :=
  t.readCell pd = v ∧ ∀ a, a ≠ pd → t.readCell a = s.readCell a

/-- The state in which player 1's step of a cycle begins (R220); `turn` is the model's (log 9). -/
def cycleStart (s : State) : State :=
  { s with currentCycle := s.currentCycle + 1, turn := .p1 }

/-- The end of a cycle without a loss (R224), with the result the host reads. -/
def endCycle (s : State) : State :=
  if s.cfg.maxCycles ≤ s.currentCycle then
    { s with roundState := .draw, response := some (.round .draw) }
  else { s with response := some (.round s.roundState) }

/-- The state with player `k` the winner, with the result the host reads. -/
def wonState (k : Player) (s : State) : State :=
  { s with roundState := .wonBy k, response := some (.round (.wonBy k)) }

/-- `t` is `s` with every address moved `d` cells round the core: cells and processes (R67). -/
def Rotated (d : Nat) (s t : State) : Prop :=
  t.cfg = s.cfg ∧ t.loaded = s.loaded ∧ t.currentCycle = s.currentCycle ∧
  t.roundState = s.roundState ∧ t.turn = s.turn ∧
  (∀ a, a < s.cfg.coreSize → t.readCell (plus s a d) = s.readCell a) ∧
  ∀ k, t.queue.get k = (s.queue.get k).map fun a => plus s a d

/-- `t` is `s` but for the step reports and the last command's result. -/
def EqualButReports (s t : State) : Prop :=
  { s with report := t.report, response := t.response } = t

end Sys2Proof.Spec

open Sys2Proof Sys2Proof.Machine Sys2Proof.Assembly Sys2Proof.Spec

/-! ### Encoding and decoding -/

/-- R99, whole: what `Decode` gives on any 12 bytes, and the round trip. -/
def Obligations.DecodeFollowsTheRecordAndInvertsEncode : Prop :=
  (∀ b0 b1 b2 b3 b4 b5 b6 b7 b8 b9 b10 b11 : Byte,
    if 14 < b0.toNat ∨ 6 < b1.toNat ∨ 3 < b2.toNat ∨ 3 < b3.toNat then
      ∃ e, decode [b0, b1, b2, b3, b4, b5, b6, b7, b8, b9, b10, b11] = .error e
    else
      ∃ i, decode [b0, b1, b2, b3, b4, b5, b6, b7, b8, b9, b10, b11] = .ok i ∧
        i.op.tag = b0.toNat ∧ i.fields.mod.tag = b1.toNat ∧
        i.fields.aMode.tag = b2.toNat ∧ i.fields.bMode.tag = b3.toNat ∧
        av i = b4.toNat + 256 * b5.toNat + 65536 * b6.toNat + 16777216 * b7.toNat ∧
        bv i = b8.toNat + 256 * b9.toNat + 65536 * b10.toNat + 16777216 * b11.toNat) ∧
  ∀ i : Instr, i.encodable → decode (encode i) = .ok i

/-- Each record has one meaning: what decodes is the encoding of what it decodes to. -/
def Obligations.EncodeInvertsDecode : Prop :=
  ∀ (bytes : List Byte) (i : Instr), decode bytes = .ok i → encode i = bytes ∧ i.encodable

/-- R98: the 12 bytes of an Instruction, field by field, and programs record by record. -/
def Obligations.EncodeWritesTheRecordFields : Prop :=
  (∀ i : Instr, encode i =
    [BitVec.ofNat 8 i.op.tag, BitVec.ofNat 8 i.fields.mod.tag,
     BitVec.ofNat 8 i.fields.aMode.tag, BitVec.ofNat 8 i.fields.bMode.tag,
     BitVec.ofNat 8 (av i), BitVec.ofNat 8 (av i / 256), BitVec.ofNat 8 (av i / 65536),
     BitVec.ofNat 8 (av i / 16777216),
     BitVec.ofNat 8 (bv i), BitVec.ofNat 8 (bv i / 256), BitVec.ofNat 8 (bv i / 65536),
     BitVec.ofNat 8 (bv i / 16777216)]) ∧
  (∀ is js : List Instr, encodeProgram (is ++ js) = encodeProgram is ++ encodeProgram js) ∧
  (∀ i : Instr, encodeProgram [i] = encode i) ∧
  encode (.mov ⟨.i, .dir, .dir, 2, 0⟩) = [0x03, 0x06, 0x01, 0x01, 2, 0, 0, 0, 0, 0, 0, 0]

/-- A few records of `95_test_vectors.md` sections 1.4 and 2.2 decode to the Instructions printed
beside them there. -/
def Obligations.WrittenOutRecordsDecode : Prop :=
  decode [0x0E, 0x06, 0x03, 0x02, 0x3F, 0x1F, 0, 0, 0x34, 0x12, 0, 0] =
    .ok (.blt ⟨.i, .bin, .ain, 7999, 4660⟩) ∧
  decode [0x04, 0x02, 0x00, 0x01, 0x78, 0x56, 0x34, 0x12, 1, 0, 0, 0] =
    .ok (.add ⟨.ab, .imm, .dir, 305419896, 1⟩) ∧
  decode [0x09, 0x01, 0x03, 0x00, 0x3F, 0x1F, 0, 0, 0, 0, 0, 0] =
    .ok (.jmp ⟨.b, .bin, .imm, 7999, 0⟩) ∧
  decode [0x01, 0x01, 0x01, 0x00, 5, 0, 0, 0, 0, 0, 0, 0] =
    .ok (.frk ⟨.b, .dir, .imm, 5, 0⟩)

/-- R100: the records before the first malformed or short one, in order. -/
def Obligations.StreamReaderStopsAtTheFirstBadRecord : Prop :=
  ∀ bytes : List Byte,
    (∀ j i, (decodeProgram bytes)[j]? = some i →
      decode ((bytes.drop (12 * j)).take 12) = .ok i) ∧
    ∃ e, decode ((bytes.drop (12 * (decodeProgram bytes).length)).take 12) = .error e

/-- R212: the binary load is the load of the decoded list, and loading what the writer wrote is
loading the assembled list. -/
def Obligations.BinaryLoadEqualsListLoad : Prop :=
  (∀ (bytes : List Byte) (offset : Int) (k : Player) (s : State),
    loadBinary bytes offset k s = loadProgram (decodeProgram bytes) offset k s) ∧
  ∀ (text : List Char) (program : List Instr) (offset : Int) (k : Player) (s : State),
    assemble s.cfg.coreSize text = .ok program →
      ∃ bytes, toFile (some (assemble s.cfg.coreSize text)) = .ok bytes ∧
        decodeProgram bytes = program ∧
        loadBinary bytes offset k s = loadProgram program offset k s

/-! ### Modular arithmetic and the core -/

/-- R11: `fmod` is the one floor remainder, the source's formula gives it, and `(+)` is built on it. -/
def Obligations.FmodIsFloorModulo : Prop :=
  ∀ (x : Int) (size : Nat), 0 < size →
    (fmod x size < size ∧ (size : Int) ∣ x - fmod x size) ∧
    (∀ r : Nat, r < size → (size : Int) ∣ x - r → r = fmod x size) ∧
    (Int.tmod (Int.tmod x size + size) size = fmod x size) ∧
    ∀ (a : Nat) (n : Int), wrap size a n = fmod ((a : Int) + n) size

/-- R12: what a field write does to every cell. -/
def Obligations.FieldWriteReplacesOneField : Prop :=
  ∀ (s : State) (a v : Nat),
    OnlyCell s (s.writeField a .aVal v) a (withValues (s.readCell a) v (bv (s.readCell a))) ∧
    OnlyCell s (s.writeField a .bVal v) a (withValues (s.readCell a) (av (s.readCell a)) v)

/-- The canonical form (the model's choice, log 12) makes equal memories equal data. -/
def Obligations.CanonicalCoresWithEqualCellsAreEqual : Prop :=
  ∀ m n : List Cell, CoreWf m → CoreWf n → (∀ a, coreRead m a = coreRead n a) → m = n

/-! ### Operands -/

/-- R132 to R136 with both values of `INDIRECT_BASE`; every operand address lies in the core. -/
def Obligations.ResolveFollowsTheFourModes : Prop :=
  ∀ (cfg : Config) (core : List Cell) (p v : Nat), p < cfg.coreSize →
    resolve cfg core p .imm v = (p, []) ∧
    resolve cfg core p .dir v = ((p + v) % cfg.coreSize, []) ∧
    (let t := (p + v) % cfg.coreSize
     let base := match cfg.indirectBase with
       | .intermediate => t
       | .executing => p
     resolve cfg core p .ain v = ((base + av (coreRead core t)) % cfg.coreSize, [t]) ∧
     resolve cfg core p .bin v = ((base + bv (coreRead core t)) % cfg.coreSize, [t])) ∧
    ∀ mode, (resolve cfg core p mode v).1 < cfg.coreSize

/-- R130, R137, R141: the operands of a step and the set of addresses it reads. That the set is a
strictly rising list is the model's own representation of it (log 14, DESIGN CHOICE). -/
def Obligations.OperandsAreResolvedCopiedAndReported : Prop :=
  ∀ (f : Fields) (p : Nat) (s : State),
    let o := operandsOf f p s
    let ra := resolve s.cfg s.core p f.aMode f.aVal
    let rb := resolve s.cfg s.core p f.bMode f.bVal
    o.p = p ∧ o.ps = ra.1 ∧ o.pd = rb.1 ∧ o.src = s.readCell ra.1 ∧ o.dst = s.readCell rb.1 ∧
    o.reads.Pairwise (· < ·) ∧
    ∀ a, a ∈ o.reads ↔ a ∈ ra.2 ∨ a = ra.1 ∨ a ∈ rb.2 ∨ a = rb.1

/-- R139: the destination fields of each modifier. -/
def Obligations.DestinationFieldsTable : Prop :=
  dstFields .a = [.aVal] ∧ dstFields .ba = [.aVal] ∧
  dstFields .b = [.bVal] ∧ dstFields .ab = [.bVal] ∧
  ∀ d : Field, d ∈ dstFields .f ∧ d ∈ dstFields .x ∧ d ∈ dstFields .i

/-! ### Process control -/

/-- R160. -/
def Obligations.KilEndsTheProcess : Prop :=
  ∀ (f : Fields) (s : State) (p : Nat) (q : List Nat), s.Front s.turn p q →
    ∃ t, exec (.kil f) s = .next t ∧ SameCore s t ∧
      Stepped (.kil f) s p q [] none .killed t

/-- R161: the continuation first, the child second and only below the cap. -/
def Obligations.FrkStartsAProcessBelowTheCap : Prop :=
  ∀ (f : Fields) (s : State) (p : Nat) (q : List Nat), s.Front s.turn p q →
    ∃ t, exec (.frk f) s = .next t ∧ SameCore s t ∧
      (q.length + 1 < s.cfg.maxProcesses →
        Stepped (.frk f) s p q [plus s p 1, (operandsOf f p s).ps] none .forked t) ∧
      (s.cfg.maxProcesses ≤ q.length + 1 →
        Stepped (.frk f) s p q [plus s p 1] none .forkDropped t)

/-- R162. -/
def Obligations.NopContinuesAtTheNextCell : Prop :=
  ∀ (f : Fields) (s : State) (p : Nat) (q : List Nat), s.Front s.turn p q →
    ∃ t, exec (.nop f) s = .next t ∧ SameCore s t ∧
      Stepped (.nop f) s p q [plus s p 1] none .none t

/-! ### Data movement and arithmetic -/

/-- R171. -/
def Obligations.MovCopiesTheSelectedFields : Prop :=
  ∀ (f : Fields) (s : State) (p : Nat) (q : List Nat), s.Front s.turn p q →
    let o := operandsOf f p s
    ∃ t, exec (.mov f) s = .next t ∧
      OnlyCell s t o.pd (if f.mod = .i then o.src else combine (fun _ y => y) f.mod o.src o.dst) ∧
      Stepped (.mov f) s p q [plus s p 1] (some o.pd) .none t

/-- R172. -/
def Obligations.AddWritesTheSumModuloTheCoreSize : Prop :=
  ∀ (f : Fields) (s : State) (p : Nat) (q : List Nat), s.Front s.turn p q →
    let o := operandsOf f p s
    ∃ t, exec (.add f) s = .next t ∧
      OnlyCell s t o.pd (combine (fun x y => (x + y) % s.cfg.coreSize) f.mod o.src o.dst) ∧
      Stepped (.add f) s p q [plus s p 1] (some o.pd) .none t

/-- R173: destination minus source. -/
def Obligations.SubWritesTheDifferenceModuloTheCoreSize : Prop :=
  ∀ (f : Fields) (s : State) (p : Nat) (q : List Nat), s.Front s.turn p q →
    let o := operandsOf f p s
    ∃ t, exec (.sub f) s = .next t ∧
      OnlyCell s t o.pd
        (combine (fun x y => fmod ((s.cfg.coreSize : Int) + x - y) s.cfg.coreSize)
          f.mod o.src o.dst) ∧
      Stepped (.sub f) s p q [plus s p 1] (some o.pd) .none t

/-- R174: the exact product, reduced once. -/
def Obligations.MulWritesTheProductModuloTheCoreSize : Prop :=
  ∀ (f : Fields) (s : State) (p : Nat) (q : List Nat), s.Front s.turn p q →
    let o := operandsOf f p s
    ∃ t, exec (.mul f) s = .next t ∧
      OnlyCell s t o.pd (combine (fun x y => x * y % s.cfg.coreSize) f.mod o.src o.dst) ∧
      Stepped (.mul f) s p q [plus s p 1] (some o.pd) .none t

/-- R175: the field of a non-zero divisor becomes the quotient, the field of a zero divisor stays;
with no zero divisor the process continues, with one it dies, and `written` says whether a field
was written. -/
def Obligations.DivWritesTheQuotientOrKills : Prop :=
  ∀ (f : Fields) (s : State) (p : Nat) (q : List Nat), s.Front s.turn p q →
    let o := operandsOf f p s
    ∃ t, exec (.div f) s = .next t ∧
      OnlyCell s t o.pd (combine (fun x y => if y = 0 then x else x / y) f.mod o.src o.dst) ∧
      (¬ ZeroDivisor f.mod o.src → Stepped (.div f) s p q [plus s p 1] (some o.pd) .none t) ∧
      (ZeroDivisor f.mod o.src → ¬ OnlyZeroDivisors f.mod o.src →
        Stepped (.div f) s p q [] (some o.pd) .killed t) ∧
      (OnlyZeroDivisors f.mod o.src → Stepped (.div f) s p q [] none .killed t)

/-- R176: as R175, with the remainder. -/
def Obligations.ModWritesTheRemainderOrKills : Prop :=
  ∀ (f : Fields) (s : State) (p : Nat) (q : List Nat), s.Front s.turn p q →
    let o := operandsOf f p s
    ∃ t, exec (.mod f) s = .next t ∧
      OnlyCell s t o.pd
        (combine (fun x y => if y = 0 then x else x - y * (x / y)) f.mod o.src o.dst) ∧
      (¬ ZeroDivisor f.mod o.src → Stepped (.mod f) s p q [plus s p 1] (some o.pd) .none t) ∧
      (ZeroDivisor f.mod o.src → ¬ OnlyZeroDivisors f.mod o.src →
        Stepped (.mod f) s p q [] (some o.pd) .killed t) ∧
      (OnlyZeroDivisors f.mod o.src → Stepped (.mod f) s p q [] none .killed t)

/-! ### Control transfer -/

/-- R191. -/
def Obligations.JmpContinuesAtTheSourceAddress : Prop :=
  ∀ (f : Fields) (s : State) (p : Nat) (q : List Nat), s.Front s.turn p q →
    ∃ t, exec (.jmp f) s = .next t ∧ SameCore s t ∧
      Stepped (.jmp f) s p q [(operandsOf f p s).ps] none .none t

/-- R193. -/
def Obligations.JmzJumpsWhenAllSelectedFieldsAreZero : Prop :=
  ∀ (f : Fields) (s : State) (p : Nat) (q : List Nat), s.Front s.turn p q →
    let o := operandsOf f p s
    ∃ t, exec (.jmz f) s = .next t ∧ SameCore s t ∧
      (EveryField (· = 0) f.mod o.dst → Stepped (.jmz f) s p q [o.ps] none .none t) ∧
      (¬ EveryField (· = 0) f.mod o.dst →
        Stepped (.jmz f) s p q [plus s p 1] none .none t)

/-- R194: all non-zero, not "not all zero". -/
def Obligations.JmnJumpsWhenAllSelectedFieldsAreNonZero : Prop :=
  ∀ (f : Fields) (s : State) (p : Nat) (q : List Nat), s.Front s.turn p q →
    let o := operandsOf f p s
    ∃ t, exec (.jmn f) s = .next t ∧ SameCore s t ∧
      (EveryField (· ≠ 0) f.mod o.dst → Stepped (.jmn f) s p q [o.ps] none .none t) ∧
      (¬ EveryField (· ≠ 0) f.mod o.dst →
        Stepped (.jmn f) s p q [plus s p 1] none .none t)

/-- R195, R196. -/
def Obligations.BeqSkipsWhenEqual : Prop :=
  ∀ (f : Fields) (s : State) (p : Nat) (q : List Nat), s.Front s.turn p q →
    let o := operandsOf f p s
    ∃ t, exec (.beq f) s = .next t ∧ SameCore s t ∧
      (Equal f.mod o.src o.dst → Stepped (.beq f) s p q [plus s p 2] none .none t) ∧
      (¬ Equal f.mod o.src o.dst → Stepped (.beq f) s p q [plus s p 1] none .none t)

/-- R195, R197. -/
def Obligations.BneSkipsWhenNotEqual : Prop :=
  ∀ (f : Fields) (s : State) (p : Nat) (q : List Nat), s.Front s.turn p q →
    let o := operandsOf f p s
    ∃ t, exec (.bne f) s = .next t ∧ SameCore s t ∧
      (Equal f.mod o.src o.dst → Stepped (.bne f) s p q [plus s p 1] none .none t) ∧
      (¬ Equal f.mod o.src o.dst → Stepped (.bne f) s p q [plus s p 2] none .none t)

/-- R198: the destination greater than the source. -/
def Obligations.BltSkipsWhenTheDestinationIsGreater : Prop :=
  ∀ (f : Fields) (s : State) (p : Nat) (q : List Nat), s.Front s.turn p q →
    let o := operandsOf f p s
    ∃ t, exec (.blt f) s = .next t ∧ SameCore s t ∧
      (Greater f.mod o.src o.dst → Stepped (.blt f) s p q [plus s p 2] none .none t) ∧
      (¬ Greater f.mod o.src o.dst → Stepped (.blt f) s p q [plus s p 1] none .none t)

/-! ### All instructions -/

/-- R91, R140, R290: every instruction runs at a front process in the core. The two faults elsewhere
are the model's (logs 10, 11). -/
def Obligations.EveryInstructionRunsAtAFrontProcess : Prop :=
  ∀ (i : Instr) (s : State),
    (s.queue.get s.turn = [] → exec i s = .fault .emptyQueue) ∧
    (∀ p q, s.queue.get s.turn = p :: q → s.cfg.coreSize ≤ p → exec i s = .fault .outOfCore) ∧
    ∀ p q, s.Front s.turn p q → ∃ t, exec i s = .next t

/-- R64: what of the core an instruction may change. -/
def Obligations.OnlyTheSelectedFieldsOfOneCellChange : Prop :=
  ∀ (i : Instr) (s t : State) (p : Nat) (q : List Nat),
    s.Front s.turn p q → exec i s = .next t →
    let pd := (operandsOf i.fields p s).pd
    (∀ a, a ≠ pd → t.readCell a = s.readCell a) ∧
    (i.op ∈ [.kil, .frk, .nop, .jmp, .jmz, .jmn, .beq, .bne, .blt] → t.core = s.core) ∧
    ((i.op = .mov ∧ i.fields.mod = .i) ∨
      ∃ a b, t.readCell pd = withValues (s.readCell pd) a b ∧
        (i.fields.mod = .a ∨ i.fields.mod = .ba → b = bv (s.readCell pd)) ∧
        (i.fields.mod = .b ∨ i.fields.mod = .ab → a = av (s.readCell pd)))

/-- R140: how each instruction ends: killed, re-enqueued once, or forked. -/
def Obligations.EveryInstructionKillsContinuesOrForks : Prop :=
  ∀ (i : Instr) (s t : State) (p : Nat) (q : List Nat),
    s.Front s.turn p q → exec i s = .next t →
    (t.queue.get s.turn = q ∧ i.op ∈ [.kil, .div, .mod]) ∨
    (∃ a, t.queue.get s.turn = q ++ [a] ∧ i.op ≠ .kil) ∨
    ∃ a b, t.queue.get s.turn = q ++ [a, b] ∧ i.op = .frk

/-- R304, R306, R309: no instruction changes the cycle counter, the round state, a load flag, a
parameter or anything of the opponent's. -/
def Obligations.NoInstructionTouchesControlState : Prop :=
  ∀ (i : Instr) (s t : State), exec i s = .next t →
    t.cfg = s.cfg ∧ t.loaded = s.loaded ∧ t.currentCycle = s.currentCycle ∧
    t.roundState = s.roundState ∧ t.turn = s.turn ∧ t.pending = s.pending ∧
    t.response = s.response ∧
    t.queue.get s.turn.other = s.queue.get s.turn.other ∧
    t.report.get s.turn.other = s.report.get s.turn.other

/-- R67: code is position-independent, for one instruction and for a whole cycle. -/
def Obligations.ExecutionIsPositionIndependent : Prop :=
  ∀ (d : Nat) (s t : State), Rotated d s t →
    (∀ i s', exec i s = .next s' → ∃ t', exec i t = .next t' ∧ Rotated d s' t') ∧
    ∀ s', executeCycle s = .next s' → ∃ t', executeCycle t = .next t' ∧ Rotated d s' t'

/-! ### The step of the machine -/

/-- A step with no command pending runs the instruction the core holds where player 1's front
process stands, then ends the round, ends the cycle, or runs player 2's instruction on the core
player 1 left (R70, R220, R222, R223, R224). The model's choices: that a step with nothing pending
is `executeCycle` (log 7, DESIGN CHOICE), and the fields `response` and `turn` (logs 8, 9). -/
def Obligations.StepRunsTheFetchedInstruction : Prop :=
  ∀ (s t : State) (p : Nat) (q : List Nat),
    s.pending = [] → s.roundState = .ongoing → s.currentCycle < s.cfg.maxCycles →
    s.loaded.p1 = true → s.Front .p1 p q → exec (s.readCell p) (cycleStart s) = .next t →
    (t.queue.p1 = [] → step s = .next (wonState .p2 { t with turn := s.turn })) ∧
    (t.queue.p1 ≠ [] → s.loaded.p2 = false →
      step s = .next (endCycle { t with turn := s.turn })) ∧
    (t.queue.p1 ≠ [] → s.loaded.p2 = true → ∀ p2 q2 u, t.Front .p2 p2 q2 →
      exec (t.readCell p2) { t with turn := .p2 } = .next u →
      (u.queue.p2 = [] → step s = .next (wonState .p1 { u with turn := s.turn })) ∧
      (u.queue.p2 ≠ [] → step s = .next (endCycle { u with turn := s.turn })))

/-- R225 (c), (d): with only player 2 loaded, player 2 steps in every cycle. The model's choices:
that a step with nothing pending is `executeCycle` (log 7, DESIGN CHOICE), and the fields `response`
and `turn` (logs 8, 9). -/
def Obligations.StepRunsPlayerTwoAlone : Prop :=
  ∀ (s t : State) (p : Nat) (q : List Nat),
    s.pending = [] → s.roundState = .ongoing → s.currentCycle < s.cfg.maxCycles →
    s.loaded.p1 = false → s.loaded.p2 = true → s.Front .p2 p q →
    exec (s.readCell p) { cycleStart s with turn := .p2 } = .next t →
    (t.queue.p2 = [] → step s = .next (wonState .p1 { t with turn := s.turn })) ∧
    (t.queue.p2 ≠ [] → step s = .next (endCycle { t with turn := s.turn }))

/-- A table word the decoder reads is stored where the next step fetches (the model's choice of
`withFetchWord`, logs 15, 16): the state meets every premise of `StepRunsTheFetchedInstruction`,
whose step is a cycle by the model's choice too (log 7). -/
def Obligations.TableWordIsFetchedNext : Prop :=
  ∀ (s : State) (nbits w : Nat) (i : Instr),
    decodeTableWord nbits w = some i → 0 < s.cfg.maxCycles →
    let u := s.withFetchWord nbits w
    u.pending = [] ∧ u.roundState = .ongoing ∧ u.currentCycle < u.cfg.maxCycles ∧
    u.loaded.p1 = true ∧
    ∃ p q, u.Front .p1 p q ∧
      u.readCell p = withValues i (av i % s.cfg.coreSize) (bv i % s.cfg.coreSize)

/-! ### The scheduler -/

/-- R222, whole. -/
def Obligations.PlayerOneLosesAtOnce : Prop :=
  ∀ (s t : State) (p : Nat) (q : List Nat),
    s.roundState = .ongoing → s.currentCycle < s.cfg.maxCycles →
    s.loaded.p1 = true → s.Front .p1 p q →
    exec (s.readCell p) (cycleStart s) = .next t → t.queue.p1 = [] →
    executeCycle s = .next { t with turn := s.turn, roundState := .p2Won } ∧
    t.queue.p2 = s.queue.p2 ∧ t.report.p2 = s.report.p2

/-- R223, whole: player 2 loses, and only an owner's `KIL`, `DIV` or `MOD` empties a queue. -/
def Obligations.PlayerTwoLosesAtOnce : Prop :=
  (∀ (s s1 t : State) (p : Nat) (q : List Nat),
    s.roundState = .ongoing → s.currentCycle < s.cfg.maxCycles →
    playerTurn .p1 { s with currentCycle := s.currentCycle + 1 } = .next s1 →
    s1.roundState = .ongoing → s1.loaded.p2 = true → s1.Front .p2 p q →
    exec (s1.readCell p) { s1 with turn := .p2 } = .next t → t.queue.p2 = [] →
    executeCycle s = .next { t with turn := s1.turn, roundState := .p1Won }) ∧
  ∀ (i : Instr) (s t : State) (k : Player), exec i s = .next t →
    s.queue.get k ≠ [] → t.queue.get k = [] →
    k = s.turn ∧ s.processCount k = 1 ∧
      (i.op = .kil ∨ ((i.op = .div ∨ i.op = .mod) ∧
        ∃ p, s.queue.get k = [p] ∧ ZeroDivisor i.fields.mod (operandsOf i.fields p s).src))

/-- R224: a cycle ends in a draw exactly when it is the last one and every loaded player is alive,
and no other command makes a draw. -/
def Obligations.DrawExactlyAtTheCycleLimit : Prop :=
  (∀ s t : State, s.roundState = .ongoing → s.currentCycle < s.cfg.maxCycles →
    executeCycle s = .next t →
    (t.roundState = .draw ↔ s.currentCycle + 1 = s.cfg.maxCycles ∧
      ∀ k, s.loaded.get k = true → t.queue.get k ≠ [])) ∧
  ∀ (c : Command) (s t : State) (r : Response), perform c s = .next (t, r) →
    s.roundState ≠ .draw → t.roundState = .draw →
    c = .executeCycle ∧ s.roundState = .ongoing ∧ s.currentCycle + 1 = s.cfg.maxCycles

/-- R220, R225 (a), (b), (e), (f): the cycles without a step, and a limit of one cycle. -/
def Obligations.CyclesWithoutAStep : Prop :=
  ∀ s : State,
    (s.roundState ≠ .ongoing ∨ s.cfg.maxCycles ≤ s.currentCycle → executeCycle s = .next s) ∧
    (s.roundState = .ongoing → s.currentCycle < s.cfg.maxCycles →
      s.loaded.p1 = false → s.loaded.p2 = false →
      executeCycle s = .next
        { s with
          currentCycle := s.currentCycle + 1
          roundState := if s.cfg.maxCycles = s.currentCycle + 1 then .draw else .ongoing }) ∧
    (s.cfg.maxCycles = 1 → s.currentCycle = 0 → ∀ t, executeCycle s = .next t →
      t.roundState ≠ .ongoing)

/-- R29: the counter rises by exactly 1 in every cycle that is not a no-op, and no other command
but `reset` changes it. -/
def Obligations.CycleCounterCountsCycles : Prop :=
  (∀ s t : State, s.roundState = .ongoing → s.currentCycle < s.cfg.maxCycles →
    executeCycle s = .next t → t.currentCycle = s.currentCycle + 1) ∧
  ∀ (c : Command) (s t : State) (r : Response), perform c s = .next (t, r) →
    c ≠ .reset → c ≠ .executeCycle → t.currentCycle = s.currentCycle

/-- R221: a player that is not loaded neither steps nor changes. -/
def Obligations.UnloadedPlayerHasNoTurn : Prop :=
  ∀ (s t : State) (k : Player), s.loaded.get k = false → executeCycle s = .next t →
    t.queue.get k = s.queue.get k ∧ t.report.get k = s.report.get k ∧ t.loaded = s.loaded

/-! ### Host commands -/

/-- R36, R330: construction, the model's reset state and the `reset` command leave, field by field,
the values the spec gives. -/
def Obligations.ResetLeavesTheStatedValues : Prop :=
  ∀ cfg : Config,
    (∀ s, s = State.resetWith cfg ∨ (∃ u, u.cfg = cfg ∧ s = hostReset u) ∨
        (cfg = Config.chosen ∧ s = State.reset) →
      s.cfg = cfg ∧ (∀ a, s.readCell a = .kil ⟨.a, .imm, .imm, 0, 0⟩) ∧
      s.queue.p1 = [] ∧ s.queue.p2 = [] ∧ s.loaded.p1 = false ∧ s.loaded.p2 = false ∧
      s.currentCycle = 0 ∧ s.roundState = .ongoing ∧
      ∀ k, s.report.get k =
        { valid := false, execAddr := 0, execInstr := .kil ⟨.a, .imm, .imm, 0, 0⟩, reads := [],
          written := none, procCount := 0, event := .none })

/-- R213: `reset` never fails and sets every field the spec names, and no other command
leaves a terminal round state or frees a load slot; no command changes the parameters. -/
def Obligations.OnlyResetFreesASlotOrLeavesATerminalState : Prop :=
  (∀ s : State, ∃ t, perform .reset s = .next (t, .done) ∧
    t.cfg = s.cfg ∧ (∀ a, t.readCell a = Instr.dflt) ∧ (∀ k, t.queue.get k = []) ∧
    (∀ k, t.loaded.get k = false) ∧ t.currentCycle = 0 ∧ t.roundState = .ongoing ∧
    ∀ k, t.report.get k = Report.empty) ∧
  ∀ (c : Command) (s t : State) (r : Response), perform c s = .next (t, r) →
    t.cfg = s.cfg ∧
    (c ≠ .reset →
      (s.roundState ≠ .ongoing → t.roundState = s.roundState) ∧
      ∀ k, s.loaded.get k = true → t.loaded.get k = true)

/-- R214, R215, R216: `clearReports` empties both reports and changes nothing else; the observers
answer with the state's own values and change nothing; `executeCycle` returns the new round
state. -/
def Obligations.ClearReportsAndObserversLeaveTheRest : Prop :=
  ∀ (s : State) (k : Player) (a : Nat),
    perform .clearReports s =
      .next ({ s with report := ⟨Report.empty, Report.empty⟩ }, .done) ∧
    perform (.observe .roundState) s = .next (s, .round s.roundState) ∧
    perform (.observe .currentCycle) s = .next (s, .count s.currentCycle) ∧
    perform (.observe (.isLoaded k)) s = .next (s, .flag (s.loaded.get k)) ∧
    perform (.observe (.processCount k)) s = .next (s, .count (s.queue.get k).length) ∧
    perform (.observe (.report k)) s = .next (s, .report (s.report.get k)) ∧
    (a < s.cfg.coreSize → perform (.observe (.peek a)) s = .next (s, .cell (s.readCell a))) ∧
    ∀ t r, perform .executeCycle s = .next (t, r) → r = .round t.roundState

/-- R211: both errors in their order, and what a load writes and leaves. -/
def Obligations.LoadProgramCopiesAndSeeds : Prop :=
  ∀ (is : List Instr) (offset : Int) (k : Player) (s : State),
    let size := s.cfg.coreSize
    let o := fmod offset size
    (size < is.length →
      perform (.loadProgram is offset k) s = .next (s, .loadError .tooManyInstructions)) ∧
    (is.length ≤ size → s.loaded.get k = true →
      perform (.loadProgram is offset k) s = .next (s, .loadError .alreadyLoaded)) ∧
    (is.length ≤ size → s.loaded.get k = false →
      ∃ t, perform (.loadProgram is offset k) s = .next (t, .done) ∧
        (∀ (j : Nat) (i : Instr), is[j]? = some i →
          t.readCell (plus s o j) = withValues i (av i % size) (bv i % size)) ∧
        (∀ a, (∀ j : Nat, j < is.length → a ≠ plus s o j) → t.readCell a = s.readCell a) ∧
        t.queue.get k = s.queue.get k ++ [o] ∧ (s.Inv → t.queue.get k = [o]) ∧
        t.queue.get k.other = s.queue.get k.other ∧
        t.loaded.get k = true ∧ t.loaded.get k.other = s.loaded.get k.other ∧
        t.cfg = s.cfg ∧ t.currentCycle = s.currentCycle ∧ t.roundState = s.roundState ∧
        t.report = s.report ∧ t.turn = s.turn ∧ t.pending = s.pending ∧
        t.response = s.response)

/-- R292: the two load errors, whatever the Instructions are; the state is unchanged. -/
def Obligations.LoadErrorsLeaveTheStateUnchanged : Prop :=
  ∀ (is : List Instr) (offset : Int) (k : Player) (s : State),
    (s.cfg.coreSize < is.length →
      perform (.loadProgram is offset k) s = .next (s, .loadError .tooManyInstructions)) ∧
    (s.loaded.get k = true → ∃ e, perform (.loadProgram is offset k) s = .next (s, .loadError e) ∧
      (is.length ≤ s.cfg.coreSize → e = .alreadyLoaded)) ∧
    ∀ t e, perform (.loadProgram is offset k) s = .next (t, .loadError e) → t = s

/-- R293, R330: size 0 is `InvalidSize`; any other size up to R6's bound gives the reset state. -/
def Obligations.ConstructionSucceedsForEveryLegalSize : Prop :=
  (∀ cycles procs base, construct 0 cycles procs base = .error .invalidSize) ∧
  ∀ size cycles procs base, 0 < size → size ≤ 2 ^ 32 →
    ∃ s, construct size cycles procs base = .ok s ∧ s = State.resetWith s.cfg ∧
      s.cfg.coreSize = size ∧ s.cfg.maxCycles = cycles ∧ s.cfg.maxProcesses = procs ∧
      s.cfg.indirectBase = base

/-! ### The invariant -/

/-- The invariant holds after construction with any parameters and in the model's reset state. -/
def Obligations.InvariantHoldsAtReset : Prop :=
  (∀ cfg : Config, (State.resetWith cfg).Inv) ∧ State.reset.Inv

/-- Every step keeps the invariant, whichever command it performs. The invariant's canonical form of
the core is the model's own (log 12), as are the commands of a step (log 7). -/
def Obligations.StepKeepsTheInvariant : Prop :=
  ∀ s t : State, s.Inv → step s = .next t → t.Inv

/-- R35 and R26, clause by clause, in every reachable state. -/
def Obligations.ReachableStatesMeetTheListedInvariants : Prop :=
  ∀ s : State, s.Reachable →
    (∀ a, av (s.readCell a) < s.cfg.coreSize ∧ bv (s.readCell a) < s.cfg.coreSize) ∧
    (∀ k, ∀ a ∈ s.queue.get k, a < s.cfg.coreSize) ∧
    (∀ k, s.loaded.get k = false → s.processCount k = 0) ∧
    (∀ k, s.loaded.get k = true → s.roundState = .ongoing → 1 ≤ s.processCount k) ∧
    (s.processCount .p1 = 0 → s.loaded.p1 = true → s.roundState = .p2Won) ∧
    (s.processCount .p2 = 0 → s.loaded.p2 = true → s.roundState = .p1Won) ∧
    s.currentCycle ≤ s.cfg.maxCycles ∧
    (s.roundState = .draw → s.currentCycle = s.cfg.maxCycles) ∧
    ∀ k, s.processCount k ≤ max 1 s.cfg.maxProcesses

/-- R63, R295: in a state of the invariant no step faults, unless the host asks for a cell outside
the core. Which command a step performs (log 7) and the fault of such a `peek` (log 11) are the
model's choice. -/
def Obligations.NoStepFaultsUnderTheInvariant : Prop :=
  ∀ s : State, s.Inv → s.AsksInCore → ∃ t, step s = .next t

/-- R226: every round ends after at most `MAX_CYCLES` cycles. That each step of the run is a cycle,
nothing being pending, is the model's choice (log 7, DESIGN CHOICE): the host goes on issuing
`executeCycle`. -/
def Obligations.EveryRoundEnds : Prop :=
  ∀ s : State, s.Inv → s.pending = [] → 1 ≤ s.cfg.maxCycles →
    ∃ t : State, Host.Core.run Sys2Proof.core (s.cfg.maxCycles - s.currentCycle) s = .next t ∧
      t.roundState ≠ .ongoing

/-- R33: no instruction, no scheduling decision and no command's effect on the rest of the state
reads a step report. The commands of a step and the field `response` are the model's (logs 7, 8). -/
def Obligations.ReportsInfluenceNothing : Prop :=
  ∀ s t s' : State, EqualButReports s t → step s = .next s' →
    ∃ t', step t = .next t' ∧ EqualButReports s' t'

/-! ### The assembler -/

/-- R264: the source's four examples, for core size 8000 (`95_test_vectors.md` 1.3 to 1.5). -/
def Obligations.SourceAssemblerExamples : Prop :=
  assemble 8000 "mov.i 2, 0\nkil 0, 0\nkil 10, 10".toList =
    .ok [.mov ⟨.i, .dir, .dir, 2, 0⟩, .kil ⟨.f, .dir, .dir, 0, 0⟩,
      .kil ⟨.f, .dir, .dir, 10, 10⟩] ∧
  assemble 8000 "mov.b 1, 2\njmp 2, #-2\nkil #0, #2\njmp @-1\nkil #0, #0".toList =
    .ok [.mov ⟨.b, .dir, .dir, 1, 2⟩, .jmp ⟨.b, .dir, .imm, 2, 7998⟩,
      .kil ⟨.f, .imm, .imm, 0, 2⟩, .jmp ⟨.b, .bin, .imm, 7999, 0⟩,
      .kil ⟨.f, .imm, .imm, 0, 0⟩] ∧
  assemble 8000 "addiu $1, $2".toList = .failed [(1, .invalidInstruction)] ∧
  assemble 8000 "abc: sub 20, 30\nabc: add -1, 1".toList = .failed [(2, .duplicateLabel)]

/-- R255: the table of inferred modifiers, and that a line gets its explicit modifier if it has one
and else the inferred one. -/
def Obligations.DefaultModifierTable : Prop :=
  (∀ (size idx : Nat) (labels : Labels) (t : Token) (rest rest' : List Token) (i : Instr)
    (m : Option Modifier), decodeLine size labels idx (t :: rest) = .ok i →
      parseModifier rest = .ok (m, rest') →
      i.fields.mod = m.getD (defaultModifier i.op i.fields.aMode i.fields.bMode)) ∧
  ∀ am bm : AddrMode,
    (∀ op ∈ [Opcode.kil, .nop], defaultModifier op am bm = .f) ∧
    (∀ op ∈ [Opcode.frk, .jmp, .jmz, .jmn], defaultModifier op am bm = .b) ∧
    (∀ op ∈ [Opcode.mov, .beq, .bne],
      (am = .imm → defaultModifier op am bm = .ab) ∧
      (am ≠ .imm → bm = .imm → defaultModifier op am bm = .b) ∧
      (am ≠ .imm → bm ≠ .imm → defaultModifier op am bm = .i)) ∧
    (∀ op ∈ [Opcode.add, .sub, .mul, .div, .mod],
      (am = .imm → defaultModifier op am bm = .ab) ∧
      (am ≠ .imm → bm = .imm → defaultModifier op am bm = .b) ∧
      (am ≠ .imm → bm ≠ .imm → defaultModifier op am bm = .f)) ∧
    (am = .imm → defaultModifier .blt am bm = .ab) ∧
    (am ≠ .imm → defaultModifier .blt am bm = .b)

/-- R256: a label operand's value, and that in a direct operand it reaches the labelled instruction
wherever the program is loaded. -/
def Obligations.LabelOperandsReachTheirInstruction : Prop :=
  ∀ (size idx l o : Nat) (labels : Labels) (name : Token) (mode : AddrMode), 0 < size →
    isIdentifier name = true → mode ≠ .imm → lookupLabel labels name = some l →
    ∃ v, operandValue size labels idx mode name = .ok v ∧ v = fmod ((l : Int) - idx) size ∧
      wrap size (wrap size o idx) v = wrap size o l

/-- R116: an Instruction of the core, in the canonical spelling, assembles to itself. -/
def Obligations.CanonicalSpellingReassembles : Prop :=
  ∀ (size : Nat) (i : Instr), i.fitsCore size → assemble size (spell i) = .ok [i]

/-- R250, R253, R262: all or nothing, one Instruction per instruction line, values in range. -/
def Obligations.AssemblyIsAllOrNothing : Prop :=
  ∀ (size : Nat) (lines : List (List Char)), 0 < size →
    let c := firstPass lines
    (∀ program, assembleLines size lines = .ok program →
      c.errors = [] ∧ program.length = c.lines.length ∧
      (∀ (idx n : Nat) (tokens : List Token), c.lines[idx]? = some (n, tokens) →
        ∃ i, program[idx]? = some i ∧ decodeLine size c.labels idx tokens = .ok i) ∧
      ∀ i ∈ program, i.fitsCore size) ∧
    ∀ errors, assembleLines size lines = .failed errors → errors ≠ [] ∧
      ∀ e, e ∈ errors ↔ e ∈ c.errors ∨ ∃ (idx : Nat) (tokens : List Token),
        c.lines[idx]? = some (e.1, tokens) ∧ decodeLine size c.labels idx tokens = .error e.2

/-- R265: the writer writes 12 bytes an Instruction after a successful assembly, the reader reads
them back, and before any assembly the writer fails. That it fails after a failed assembly, whatever
came before, is the model's reading of R250, R262 and R265 (log 21, DEDUCED). -/
def Obligations.WriterNeedsASuccessfulAssembly : Prop :=
  (∀ program, toFile (some (.ok program)) = .ok (encodeProgram program) ∧
    (encodeProgram program).length = 12 * program.length ∧
    ((∀ i ∈ program, i.encodable) → decodeProgram (encodeProgram program) = program)) ∧
  toFile none = .error .notAssembled ∧
  ∀ errors, toFile (some (.failed errors)) = .error .notAssembled
end

