-- ==== Sys2Proof/Laws/State.lean ====
section
/-! SUPPORT. One lemma per field for each state update of `Machine/Ops.lean`, and the lemmas of the
per-player pairs: no later proof unfolds a record update. -/

namespace Sys2Proof.Machine

/-! ### Players and pairs -/

@[simp] theorem Player.other_other (k : Player) : k.other.other = k := by cases k <;> rfl
@[simp] theorem Player.other_ne (k : Player) : k.other ≠ k := by cases k <;> decide
@[simp] theorem Player.ne_other (k : Player) : k ≠ k.other := by cases k <;> decide

theorem Player.eq_or_other (k j : Player) : j = k ∨ j = k.other := by
  cases k <;> cases j <;> decide

@[simp] theorem PerPlayer.get_set_same {α : Type} (v : PerPlayer α) (k : Player) (x : α) :
    (v.set k x).get k = x := by cases k <;> rfl
@[simp] theorem PerPlayer.get_set_other {α : Type} (v : PerPlayer α) (k : Player) (x : α) :
    (v.set k x).get k.other = v.get k.other := by cases k <;> rfl
theorem PerPlayer.get_set_ne {α : Type} (v : PerPlayer α) {k j : Player} (x : α) (h : j ≠ k) :
    (v.set k x).get j = v.get j := by
  cases k <;> cases j <;> first | rfl | exact absurd rfl h
@[simp] theorem PerPlayer.set_set {α : Type} (v : PerPlayer α) (k : Player) (x y : α) :
    (v.set k x).set k y = v.set k y := by cases k <;> rfl
theorem PerPlayer.ext_get {α : Type} {v w : PerPlayer α} (h : ∀ k, v.get k = w.get k) : v = w := by
  obtain ⟨a, b⟩ := v
  obtain ⟨c, d⟩ := w
  have h1 : a = c := h .p1
  have h2 : b = d := h .p2
  rw [h1, h2]

/-! ### writeCell -/

variable (s : State) (a v : Nat) (i : Instr) (d : Field) (k : Player) (r : Report)

@[simp] theorem State.writeCell_core : (s.writeCell a i).core = coreWrite s.core a i := rfl
@[simp] theorem State.writeCell_cfg : (s.writeCell a i).cfg = s.cfg := rfl
@[simp] theorem State.writeCell_queue : (s.writeCell a i).queue = s.queue := rfl
@[simp] theorem State.writeCell_loaded : (s.writeCell a i).loaded = s.loaded := rfl
@[simp] theorem State.writeCell_currentCycle : (s.writeCell a i).currentCycle = s.currentCycle := rfl
@[simp] theorem State.writeCell_roundState : (s.writeCell a i).roundState = s.roundState := rfl
@[simp] theorem State.writeCell_report : (s.writeCell a i).report = s.report := rfl
@[simp] theorem State.writeCell_turn : (s.writeCell a i).turn = s.turn := rfl
@[simp] theorem State.writeCell_pending : (s.writeCell a i).pending = s.pending := rfl
@[simp] theorem State.writeCell_response : (s.writeCell a i).response = s.response := rfl

/-! ### writeField -/

@[simp] theorem State.writeField_core :
    (s.writeField a d v).core = coreWrite s.core a (setField (s.readCell a) d v) := rfl
@[simp] theorem State.writeField_cfg : (s.writeField a d v).cfg = s.cfg := rfl
@[simp] theorem State.writeField_queue : (s.writeField a d v).queue = s.queue := rfl
@[simp] theorem State.writeField_loaded : (s.writeField a d v).loaded = s.loaded := rfl
@[simp] theorem State.writeField_currentCycle :
    (s.writeField a d v).currentCycle = s.currentCycle := rfl
@[simp] theorem State.writeField_roundState : (s.writeField a d v).roundState = s.roundState := rfl
@[simp] theorem State.writeField_report : (s.writeField a d v).report = s.report := rfl
@[simp] theorem State.writeField_turn : (s.writeField a d v).turn = s.turn := rfl
@[simp] theorem State.writeField_pending : (s.writeField a d v).pending = s.pending := rfl
@[simp] theorem State.writeField_response : (s.writeField a d v).response = s.response := rfl

/-! ### pushBack -/

@[simp] theorem State.pushBack_core : (s.pushBack k a).core = s.core := rfl
@[simp] theorem State.pushBack_cfg : (s.pushBack k a).cfg = s.cfg := rfl
@[simp] theorem State.pushBack_queue :
    (s.pushBack k a).queue = s.queue.set k (s.queue.get k ++ [a]) := rfl
@[simp] theorem State.pushBack_loaded : (s.pushBack k a).loaded = s.loaded := rfl
@[simp] theorem State.pushBack_currentCycle : (s.pushBack k a).currentCycle = s.currentCycle := rfl
@[simp] theorem State.pushBack_roundState : (s.pushBack k a).roundState = s.roundState := rfl
@[simp] theorem State.pushBack_report : (s.pushBack k a).report = s.report := rfl
@[simp] theorem State.pushBack_turn : (s.pushBack k a).turn = s.turn := rfl
@[simp] theorem State.pushBack_pending : (s.pushBack k a).pending = s.pending := rfl
@[simp] theorem State.pushBack_response : (s.pushBack k a).response = s.response := rfl

/-! ### setReport -/

@[simp] theorem State.setReport_core : (s.setReport k r).core = s.core := rfl
@[simp] theorem State.setReport_cfg : (s.setReport k r).cfg = s.cfg := rfl
@[simp] theorem State.setReport_queue : (s.setReport k r).queue = s.queue := rfl
@[simp] theorem State.setReport_loaded : (s.setReport k r).loaded = s.loaded := rfl
@[simp] theorem State.setReport_currentCycle :
    (s.setReport k r).currentCycle = s.currentCycle := rfl
@[simp] theorem State.setReport_roundState : (s.setReport k r).roundState = s.roundState := rfl
@[simp] theorem State.setReport_report : (s.setReport k r).report = s.report.set k r := rfl
@[simp] theorem State.setReport_turn : (s.setReport k r).turn = s.turn := rfl
@[simp] theorem State.setReport_pending : (s.setReport k r).pending = s.pending := rfl
@[simp] theorem State.setReport_response : (s.setReport k r).response = s.response := rfl

/-! ### The fields of each constructor -/

@[simp] theorem Instr.fields_kil (f : Fields) : (Instr.kil f).fields = f := rfl
@[simp] theorem Instr.fields_frk (f : Fields) : (Instr.frk f).fields = f := rfl
@[simp] theorem Instr.fields_nop (f : Fields) : (Instr.nop f).fields = f := rfl
@[simp] theorem Instr.fields_mov (f : Fields) : (Instr.mov f).fields = f := rfl
@[simp] theorem Instr.fields_add (f : Fields) : (Instr.add f).fields = f := rfl
@[simp] theorem Instr.fields_sub (f : Fields) : (Instr.sub f).fields = f := rfl
@[simp] theorem Instr.fields_mul (f : Fields) : (Instr.mul f).fields = f := rfl
@[simp] theorem Instr.fields_div (f : Fields) : (Instr.div f).fields = f := rfl
@[simp] theorem Instr.fields_mod (f : Fields) : (Instr.mod f).fields = f := rfl
@[simp] theorem Instr.fields_jmp (f : Fields) : (Instr.jmp f).fields = f := rfl
@[simp] theorem Instr.fields_jmz (f : Fields) : (Instr.jmz f).fields = f := rfl
@[simp] theorem Instr.fields_jmn (f : Fields) : (Instr.jmn f).fields = f := rfl
@[simp] theorem Instr.fields_beq (f : Fields) : (Instr.beq f).fields = f := rfl
@[simp] theorem Instr.fields_bne (f : Fields) : (Instr.bne f).fields = f := rfl
@[simp] theorem Instr.fields_blt (f : Fields) : (Instr.blt f).fields = f := rfl
@[simp] theorem Instr.op_kil (f : Fields) : (Instr.kil f).op = .kil := rfl
@[simp] theorem Instr.op_frk (f : Fields) : (Instr.frk f).op = .frk := rfl
@[simp] theorem Instr.op_nop (f : Fields) : (Instr.nop f).op = .nop := rfl
@[simp] theorem Instr.op_mov (f : Fields) : (Instr.mov f).op = .mov := rfl
@[simp] theorem Instr.op_add (f : Fields) : (Instr.add f).op = .add := rfl
@[simp] theorem Instr.op_sub (f : Fields) : (Instr.sub f).op = .sub := rfl
@[simp] theorem Instr.op_mul (f : Fields) : (Instr.mul f).op = .mul := rfl
@[simp] theorem Instr.op_div (f : Fields) : (Instr.div f).op = .div := rfl
@[simp] theorem Instr.op_mod (f : Fields) : (Instr.mod f).op = .mod := rfl
@[simp] theorem Instr.op_jmp (f : Fields) : (Instr.jmp f).op = .jmp := rfl
@[simp] theorem Instr.op_jmz (f : Fields) : (Instr.jmz f).op = .jmz := rfl
@[simp] theorem Instr.op_jmn (f : Fields) : (Instr.jmn f).op = .jmn := rfl
@[simp] theorem Instr.op_beq (f : Fields) : (Instr.beq f).op = .beq := rfl
@[simp] theorem Instr.op_bne (f : Fields) : (Instr.bne f).op = .bne := rfl
@[simp] theorem Instr.op_blt (f : Fields) : (Instr.blt f).op = .blt := rfl

/-! ### Fields of Instructions -/

@[simp] theorem Instr.op_instr (o : Opcode) (f : Fields) : (o.instr f).op = o := by cases o <;> rfl
@[simp] theorem Instr.fields_instr (o : Opcode) (f : Fields) : (o.instr f).fields = f := by
  cases o <;> rfl
@[simp] theorem Instr.instr_op_fields (i : Instr) : i.op.instr i.fields = i := by cases i <;> rfl
theorem Instr.eq_of_op_fields {i j : Instr} (ho : i.op = j.op) (hf : i.fields = j.fields) :
    i = j := by rw [← Instr.instr_op_fields i, ho, hf, Instr.instr_op_fields]

@[simp] theorem setField_op : (setField i d v).op = i.op := by cases d <;> simp [setField]
@[simp] theorem setField_fields_aVal :
    (setField i .aVal v).fields = { i.fields with aVal := v } := by simp [setField]
@[simp] theorem setField_fields_bVal :
    (setField i .bVal v).fields = { i.fields with bVal := v } := by simp [setField]
@[simp] theorem normalize_op (n : Nat) : (normalize n i).op = i.op := by simp [normalize]
@[simp] theorem normalize_fields (n : Nat) : (normalize n i).fields =
    { i.fields with aVal := fmod i.fields.aVal n, bVal := fmod i.fields.bVal n } := by
  simp [normalize]

end Sys2Proof.Machine
end

