-- ==== Sys2Proof/Laws/Memory.lean ====
section
/-! SUPPORT. Modular arithmetic and the core: what a read gives after a write, that every memory
operation keeps the canonical form, and that it keeps a property of all listed cells. -/

namespace Sys2Proof.Machine

/-! ### Modular arithmetic -/

theorem fmod_lt (x : Int) {size : Nat} (h : 0 < size) : fmod x size < size := by
  have h1 := Int.emod_nonneg x (b := (size : Int)) (by omega)
  have h2 := Int.emod_lt_of_pos x (b := (size : Int)) (by omega)
  unfold fmod
  omega

theorem fmod_of_lt {v size : Nat} (h : v < size) : fmod v size = v := by
  unfold fmod
  rw [Int.emod_eq_of_lt (by omega) (by omega)]
  simp

theorem fmod_natCast (v size : Nat) : fmod v size = v % size := by
  unfold fmod
  rw [← Int.natCast_mod]
  exact Int.toNat_natCast _

theorem wrap_lt (a : Nat) (n : Int) {size : Nat} (h : 0 < size) : wrap size a n < size :=
  fmod_lt _ h

theorem State.after_lt (s : State) (p : Nat) (n : Int) : wrap s.cfg.coreSize p n < s.cfg.coreSize :=
  wrap_lt p n s.cfg.coreSize_pos

/-! ### Reading after a write -/

theorem coreRead_erase (m : List Cell) (a b : Nat) :
    coreRead (coreErase m a) b = if b = a then Instr.dflt else coreRead m b := by
  induction m with
  | nil => simp [coreErase, coreRead]
  | cons c m ih =>
    obtain ⟨e, i⟩ := c
    unfold coreErase at ih ⊢
    by_cases he : e = a
    · rw [List.filter_cons_of_neg (by simp [he]), ih]
      by_cases hb : b = a
      · simp [hb]
      · simp [hb, coreRead, he, Ne.symm hb]
    · rw [List.filter_cons_of_pos (by simp [he])]
      by_cases hb : e = b
      · have : b ≠ a := fun h => he (hb.trans h)
        simp [coreRead, hb, this]
      · simp only [coreRead, hb, if_false]
        exact ih

theorem coreRead_insert (m : List Cell) (a b : Nat) (i : Instr) (h : ∀ c ∈ m, c.1 ≠ a) :
    coreRead (coreInsert m a i) b = if b = a then i else coreRead m b := by
  induction m with
  | nil => simp [coreInsert, coreRead, eq_comm]
  | cons c m ih =>
    obtain ⟨e, j⟩ := c
    have he : e ≠ a := h _ (List.mem_cons_self ..)
    have ih' := ih fun c hc => h c (List.mem_cons_of_mem _ hc)
    unfold coreInsert
    split
    · simp [coreRead, eq_comm]
    · simp only [coreRead, ih']
      by_cases hb : e = b
      · simp [hb, show b ≠ a from fun h => he (hb.trans h)]
      · simp [hb]

/-- Reading after a write gives the value written at the address written, the old one elsewhere. -/
theorem coreRead_write (m : List Cell) (a b : Nat) (i : Instr) :
    coreRead (coreWrite m a i) b = if b = a then i else coreRead m b := by
  unfold coreWrite
  split
  · rename_i h
    rw [coreRead_erase, h]
  · rw [coreRead_insert _ _ _ _ (by simp [coreErase]), coreRead_erase]
    split <;> simp_all

@[simp] theorem coreRead_nil (a : Nat) : coreRead [] a = Instr.dflt := rfl

@[simp] theorem State.readCell_writeCell_same (s : State) (a : Nat) (i : Instr) :
    (s.writeCell a i).readCell a = i := by
  simp [State.readCell, coreRead_write]

theorem State.readCell_writeCell (s : State) (a b : Nat) (i : Instr) :
    (s.writeCell a i).readCell b = if b = a then i else s.readCell b := by
  simp [State.readCell, coreRead_write]

theorem State.readCell_writeField (s : State) (a b : Nat) (d : Field) (v : Nat) :
    (s.writeField a d v).readCell b =
      if b = a then setField (s.readCell a) d v else s.readCell b :=
  s.readCell_writeCell a b _

/-! ### The canonical form -/

theorem coreErase_sublist (m : List Cell) (a : Nat) : (coreErase m a).Sublist m :=
  List.filter_sublist

theorem mem_coreInsert {m : List Cell} {a : Nat} {i : Instr} {c : Cell}
    (h : c ∈ coreInsert m a i) : c = (a, i) ∨ c ∈ m := by
  induction m with
  | nil => simpa [coreInsert] using h
  | cons e m ih =>
    unfold coreInsert at h
    split at h
    · simpa using h
    · rcases List.mem_cons.1 h with h | h
      · exact .inr (h ▸ List.mem_cons_self ..)
      · exact (ih h).imp id (List.mem_cons_of_mem _)

theorem mem_coreWrite {m : List Cell} {a : Nat} {i : Instr} {c : Cell}
    (h : c ∈ coreWrite m a i) : c = (a, i) ∨ c ∈ m := by
  unfold coreWrite at h
  split at h
  · exact .inr ((coreErase_sublist m a).subset h)
  · exact (mem_coreInsert h).imp id fun h => (coreErase_sublist m a).subset h

theorem coreInsert_rising {m : List Cell} {a : Nat} (i : Instr)
    (h : (m.map Prod.fst).Pairwise (· < ·)) (ha : ∀ c ∈ m, c.1 ≠ a) :
    ((coreInsert m a i).map Prod.fst).Pairwise (· < ·) := by
  induction m with
  | nil => simp [coreInsert]
  | cons e m ih =>
    simp only [List.map_cons, List.pairwise_cons] at h
    have hea : e.1 ≠ a := ha _ (List.mem_cons_self ..)
    unfold coreInsert
    split
    · rename_i hlt
      simp only [List.map_cons, List.pairwise_cons, List.mem_cons]
      refine ⟨?_, h.1, h.2⟩
      rintro b (rfl | hb)
      · exact hlt
      · exact hlt.trans (h.1 b hb)
    · simp only [List.map_cons, List.pairwise_cons]
      refine ⟨fun b hb => ?_, ih h.2 fun c hc => ha c (List.mem_cons_of_mem _ hc)⟩
      obtain ⟨c, hc, rfl⟩ := List.mem_map.1 hb
      rcases mem_coreInsert hc with rfl | hc
      · simp only at *
        omega
      · exact h.1 _ (List.mem_map_of_mem hc)

/-- Every write keeps the canonical form of the core (log 12). -/
theorem coreWrite_wf {m : List Cell} (h : CoreWf m) (a : Nat) (i : Instr) :
    CoreWf (coreWrite m a i) := by
  have he : ((coreErase m a).map Prod.fst).Pairwise (· < ·) :=
    h.1.sublist ((coreErase_sublist m a).map _)
  unfold coreWrite
  split
  · exact ⟨he, fun c hc => h.2 c ((coreErase_sublist m a).subset hc)⟩
  · rename_i hi
    refine ⟨coreInsert_rising i he (by simp [coreErase]), fun c hc => ?_⟩
    rcases mem_coreInsert hc with rfl | hc
    · exact hi
    · exact h.2 c ((coreErase_sublist m a).subset hc)

theorem State.writeCell_wf {s : State} (h : CoreWf s.core) (a : Nat) (i : Instr) :
    CoreWf (s.writeCell a i).core := coreWrite_wf h a i

theorem State.writeField_wf {s : State} (h : CoreWf s.core) (a : Nat) (d : Field) (v : Nat) :
    CoreWf (s.writeField a d v).core := coreWrite_wf h a _

/-- The core of the reset state is in canonical form. -/
theorem resetWith_wf (cfg : Config) : CoreWf (State.resetWith cfg).core := by
  exact ⟨List.Pairwise.nil, fun c hc => absurd hc List.not_mem_nil⟩

/-- A property of `DEFAULT` and of every listed cell holds of what any read gives. -/
theorem coreRead_of_forall {P : Instr → Prop} {m : List Cell} (hd : P Instr.dflt)
    (h : ∀ c ∈ m, P c.2) (a : Nat) : P (coreRead m a) := by
  induction m with
  | nil => exact hd
  | cons c m ih =>
    obtain ⟨b, i⟩ := c
    unfold coreRead
    split
    · exact h _ (List.mem_cons_self ..)
    · exact ih fun c hc => h c (List.mem_cons_of_mem _ hc)

end Sys2Proof.Machine
end

