-- ==== Sys2Proof/Laws/Step.lean ====
section
/-! SUPPORT. What each shared operation of a process step can do, said once: sequencing, fetch,
`processStep`, the writes of a data instruction, and the three ways an instruction ends. -/

namespace Sys2Proof.Machine

/-! ### Sequencing and fetch -/

@[simp] theorem andThen_next_left {α β : Type} (a : α) (g : α → Host.Outcome β Fault Refusal) :
    andThen (.next a) g = g a := rfl
@[simp] theorem andThen_fault {α β : Type} (r : Fault) (g : α → Host.Outcome β Fault Refusal) :
    andThen (.fault r) g = .fault r := rfl

/-- A sequence answers a next state exactly when both its parts do. -/
theorem andThen_eq_next {α β : Type} {o : Host.Outcome α Fault Refusal}
    {g : α → Host.Outcome β Fault Refusal} {b : β} :
    andThen o g = .next b ↔ ∃ a, o = .next a ∧ g a = .next b := by
  cases o <;> simp [andThen]

theorem State.fetch_front {s : State} {k : Player} {p : Nat} {q : List Nat} (h : s.Front k p q) :
    s.fetch k = .ok (s.readCell p) := by
  simp [State.fetch, h.1, h.2]

/-- Fetch answers only the cell of a front process in the core. -/
theorem State.fetch_ok {s : State} {k : Player} {i : Instr} (h : s.fetch k = .ok i) :
    ∃ p q, s.Front k p q ∧ i = s.readCell p := by
  unfold State.fetch at h
  split at h
  · cases h
  · rename_i p q hq
    split at h
    · rename_i hp
      exact ⟨p, q, ⟨hq, hp⟩, by cases h; rfl⟩
    · cases h

/-! ### The process step -/

/-- The state with the front process of the player on turn popped. -/
def State.popped (s : State) (q : List Nat) : State :=
  { s with queue := s.queue.set s.turn q }

/-- The state a process step leaves, from the effect of its opcode. -/
def finishStep (i : Instr) (o : Operands) (k : Player) (e : Effect) : State :=
  e.state.setReport k (stepReport i o k e)

theorem processStep_front {i : Instr} {eff : Operands → State → Effect} {s : State} {p : Nat}
    {q : List Nat} (h : s.Front s.turn p q) :
    processStep i eff s = .next (finishStep i (operandsOf i.fields p s) s.turn
      (eff (operandsOf i.fields p s) (s.popped q))) := by
  simp only [processStep, State.popFront, h.1]
  exact if_pos h.2

theorem processStep_empty {i : Instr} {eff : Operands → State → Effect} {s : State}
    (h : s.queue.get s.turn = []) : processStep i eff s = .fault .emptyQueue := by
  simp only [processStep, State.popFront, h]

theorem processStep_outOfCore {i : Instr} {eff : Operands → State → Effect} {s : State} {p : Nat}
    {q : List Nat} (h : s.queue.get s.turn = p :: q) (hp : s.cfg.coreSize ≤ p) :
    processStep i eff s = .fault .outOfCore := by
  simp only [processStep, State.popFront, h]
  exact if_neg (by omega)

/-- A process step answers a next state only at a front process in the core. -/
theorem processStep_next {i : Instr} {eff : Operands → State → Effect} {s t : State}
    (h : processStep i eff s = .next t) :
    ∃ p q, s.Front s.turn p q ∧ t = finishStep i (operandsOf i.fields p s) s.turn
      (eff (operandsOf i.fields p s) (s.popped q)) := by
  cases hq : s.queue.get s.turn with
  | nil => rw [processStep_empty hq] at h; cases h
  | cons p q =>
    by_cases hp : p < s.cfg.coreSize
    · rw [processStep_front ⟨hq, hp⟩] at h
      exact ⟨p, q, ⟨hq, hp⟩, by cases h; rfl⟩
    · rw [processStep_outOfCore hq (by omega)] at h; cases h

/-! ### The writes of a data instruction -/

/-- The destination cell after the pairs `l` are written to it. -/
def updatedCell (g : FieldOp) (size : Nat) (o : Operands) :
    List (Field × Field) → Instr → Instr
  | [], c => c
  | q :: qs, c =>
    match pairValue g size o q with
    | some v => updatedCell g size o qs (setField c q.2 v)
    | none => updatedCell g size o qs c

variable (g : FieldOp) (size : Nat) (o : Operands)

/-- The pair writes change the core alone. -/
theorem writePairs_eq (l : List (Field × Field)) (s : State) :
    writePairs g size o l s = { s with core := (writePairs g size o l s).core } := by
  induction l generalizing s with
  | nil => rfl
  | cons q l ih =>
    unfold writePairs
    split
    · exact (ih _).trans rfl
    · exact ih s

/-- The pair writes change the destination cell alone, to `updatedCell`. -/
theorem writePairs_readCell (l : List (Field × Field)) (s : State) (a : Nat) :
    (writePairs g size o l s).readCell a =
      if a = o.pd then updatedCell g size o l (s.readCell o.pd) else s.readCell a := by
  induction l generalizing s with
  | nil => simp only [writePairs, updatedCell]; split <;> simp_all
  | cons q l ih =>
    cases hv : pairValue g size o q with
    | some v =>
      simp only [writePairs, updatedCell, hv]
      rw [ih, State.readCell_writeField, State.readCell_writeField]
      split <;> simp_all
    | none =>
      simp only [writePairs, updatedCell, hv]
      exact ih s

/-- The pair writes keep the canonical form. -/
theorem writePairs_wf (l : List (Field × Field)) {s : State} (h : CoreWf s.core) :
    CoreWf (writePairs g size o l s).core := by
  induction l generalizing s with
  | nil => exact h
  | cons q l ih =>
    unfold writePairs
    split
    · exact ih (State.writeField_wf h _ _ _)
    · exact ih h

/-- What a data instruction leaves: the pair writes; killed if a field was skipped, else continued
at `p (+) 1`. -/
theorem dataEffect_eq (m : Modifier) (s : State) :
    dataEffect g m o s =
      let vs := (pairs m).map (pairValue g s.cfg.coreSize o)
      let w := if vs.any Option.isSome then some o.pd else none
      let t := { s with core := (writePairs g s.cfg.coreSize o (pairs m) s).core }
      if vs.any Option.isNone then ⟨t, w, .killed⟩
      else ⟨t.pushBack s.turn (wrap s.cfg.coreSize o.p 1), w, .none⟩ := by
  unfold dataEffect killProcess continueAt State.after
  dsimp only
  rw [← writePairs_eq]
  split
  · rfl
  · rw [writePairs_eq]

/-! ### The ends of an instruction -/

@[simp] theorem continueAt_written (w : Option Nat) (a : Nat) (s : State) :
    (continueAt w a s).written = w := rfl
@[simp] theorem continueAt_event (w : Option Nat) (a : Nat) (s : State) :
    (continueAt w a s).event = .none := rfl
@[simp] theorem continueAt_state (w : Option Nat) (a : Nat) (s : State) :
    (continueAt w a s).state = s.pushBack s.turn a := rfl
@[simp] theorem killProcess_written (w : Option Nat) (s : State) :
    (killProcess w s).written = w := rfl
@[simp] theorem killProcess_event (w : Option Nat) (s : State) :
    (killProcess w s).event = .killed := rfl
@[simp] theorem killProcess_state (w : Option Nat) (s : State) : (killProcess w s).state = s := rfl

/-- `FRK` pushes the continuation, and the child behind it below the cap. -/
theorem forkEffect_eq (s : State) :
    forkEffect o s =
      let t := s.pushBack s.turn (wrap s.cfg.coreSize o.p 1)
      if (s.queue.get s.turn).length + 1 < s.cfg.maxProcesses
      then ⟨t.pushBack s.turn o.ps, none, .forked⟩ else ⟨t, none, .forkDropped⟩ := by
  simp [forkEffect, State.processCount, State.after]

/-! ### Every meaning is a process step -/

/-- The meaning of an instruction is the common step with an effect of its own. -/
theorem exec_isProcessStep (i : Instr) : ∃ eff, ∀ s, exec i s = processStep i eff s := by
  cases i <;>
    simp only [exec, execKil, execFrk, execNop, execMov, execAdd, execSub, execMul, execDiv,
      execMod, execJmp, execJmz, execJmn, execBeq, execBne, execBlt] <;>
    exact ⟨_, fun _ => rfl⟩

/-- An instruction answers a next state only at a front process in the core. -/
theorem exec_next_front {i : Instr} {s t : State} (h : exec i s = .next t) :
    ∃ p q, s.Front s.turn p q := by
  obtain ⟨eff, he⟩ := exec_isProcessStep i
  rw [he] at h
  obtain ⟨p, q, hf, -⟩ := processStep_next h
  exact ⟨p, q, hf⟩

end Sys2Proof.Machine
end

