-- ==== Sys2Proof/Laws/Commands.lean ====
section
/-! SUPPORT. What the scheduler and the host commands can do, said once: a process step of a player,
a player's turn, a program copy, a load; and that each keeps the canonical form of the core. -/

namespace Sys2Proof.Machine

/-! ### The scheduler -/

/-- A player's step is the meaning of its front cell, and nothing else answers a next state. -/
theorem stepProcess_eq_next {k : Player} {s t : State} :
    stepProcess k s = .next t ↔
      ∃ p q u, s.Front k p q ∧ exec (s.readCell p) { s with turn := k } = .next u ∧
        t = { u with turn := s.turn } := by
  unfold stepProcess
  constructor
  · intro h
    split at h
    · cases h
    · rename_i i hi
      obtain ⟨p, q, hf, rfl⟩ := State.fetch_ok hi
      obtain ⟨u, hu, ht⟩ := andThen_eq_next.1 h
      exact ⟨p, q, u, hf, hu, by cases ht; rfl⟩
  · rintro ⟨p, q, u, hf, hu, rfl⟩
    rw [State.fetch_front hf]
    exact andThen_eq_next.2 ⟨u, hu, rfl⟩

/-- The end of a player's turn after its step (R222, R223). -/
def turnEnd (k : Player) (t : State) : State :=
  if t.queue.get k = [] then { t with roundState := .wonBy k.other } else t

/-- A turn is nothing for a player that is not loaded, else its step and the test for a loss. -/
theorem playerTurn_eq_next {k : Player} {s t : State} :
    playerTurn k s = .next t ↔
      (s.loaded.get k = false ∧ t = s) ∨
      (s.loaded.get k = true ∧ ∃ u, stepProcess k s = .next u ∧ t = turnEnd k u) := by
  unfold playerTurn
  cases hl : s.loaded.get k with
  | false => simp [eq_comm]
  | true =>
    simp only [if_true, andThen_eq_next, turnEnd]
    constructor
    · rintro ⟨u, hu, ht⟩
      exact .inr ⟨trivial, u, hu, by cases ht; rfl⟩
    · rintro (⟨h, -⟩ | ⟨-, u, hu, rfl⟩)
      · cases h
      · exact ⟨u, hu, rfl⟩

/-- The end of a cycle (R224). -/
def cycleEnd (s : State) : State :=
  if s.roundState = .ongoing ∧ s.cfg.maxCycles ≤ s.currentCycle
  then { s with roundState := .draw } else s

/-- A cycle that is no no-op: player 1's turn, then player 2's unless the round is over. -/
theorem executeCycle_eq_next {s t : State} (hr : s.roundState = .ongoing)
    (hc : s.currentCycle < s.cfg.maxCycles) :
    executeCycle s = .next t ↔
      ∃ u, playerTurn .p1 { s with currentCycle := s.currentCycle + 1 } = .next u ∧
        ((u.roundState ≠ .ongoing ∧ t = u) ∨
          (u.roundState = .ongoing ∧ ∃ v, playerTurn .p2 u = .next v ∧ t = cycleEnd v)) := by
  unfold executeCycle
  rw [if_neg (by simp [hr]; omega)]
  simp only [andThen_eq_next]
  refine exists_congr fun u => and_congr_right fun _ => ?_
  by_cases hu : u.roundState = .ongoing
  · simp only [hu, ne_eq, not_true_eq_false, if_false, false_and, false_or, true_and,
      andThen_eq_next, cycleEnd]
    refine exists_congr fun v => and_congr_right fun _ => ?_
    constructor
    · intro h; cases h; rfl
    · rintro rfl; rfl
  · simp [hu, eq_comm]

theorem executeCycle_noop {s : State}
    (h : s.roundState ≠ .ongoing ∨ s.cfg.maxCycles ≤ s.currentCycle) :
    executeCycle s = .next s := if_pos h

/-! ### Loads -/

/-- A program copy changes the core alone. -/
theorem copyProgram_eq (o j : Nat) (is : List Instr) (s : State) :
    copyProgram o j is s = { s with core := (copyProgram o j is s).core } := by
  induction is generalizing j s with
  | nil => rfl
  | cons i is ih =>
    unfold copyProgram
    exact (ih _ _).trans rfl

/-- A program copy keeps the canonical form. -/
theorem copyProgram_wf (o j : Nat) (is : List Instr) {s : State} (h : CoreWf s.core) :
    CoreWf (copyProgram o j is s).core := by
  induction is generalizing j s with
  | nil => exact h
  | cons i is ih =>
    unfold copyProgram
    exact ih _ (State.writeCell_wf h _ _)

/-- The state a successful load leaves: the copy, one process at the start, the load flag. -/
def loadedState (is : List Instr) (offset : Int) (k : Player) (s : State) : State :=
  { s with
    core := (copyProgram (fmod offset s.cfg.coreSize) 0 is s).core
    queue := s.queue.set k (s.queue.get k ++ [fmod offset s.cfg.coreSize])
    loaded := s.loaded.set k true }

/-- A load: the two errors in their order, else `loadedState`. -/
theorem loadProgram_eq (is : List Instr) (offset : Int) (k : Player) (s : State) :
    loadProgram is offset k s =
      if s.cfg.coreSize < is.length then .error .tooManyInstructions
      else if s.loaded.get k = true then .error .alreadyLoaded
      else .ok (loadedState is offset k s) := by
  unfold loadProgram loadedState
  dsimp only
  rw [copyProgram_eq]
  rfl

/-- A load keeps the canonical form. -/
theorem loadOutcome_wf (is : List Instr) (offset : Int) (k : Player) {s : State}
    (h : CoreWf s.core) : CoreWf (loadOutcome s (loadProgram is offset k s)).1.core := by
  rw [loadProgram_eq]
  split
  · exact h
  · split
    · exact h
    · exact copyProgram_wf _ _ _ h

/-- `placeFirst` keeps the canonical form. -/
theorem placeFirst_wf (i : Instr) {s : State} (h : CoreWf s.core) :
    CoreWf (placeFirst i s).core := State.writeCell_wf h _ _

/-! ### The step of the machine -/

/-- A step performs the next command on the state without it, and keeps its result. -/
theorem step_eq_next {s t : State} :
    step s = .next t ↔
      ∃ u r, perform (nextCommand s).1 { s with pending := (nextCommand s).2 } = .next (u, r) ∧
        t = { u with response := some r } := by
  simp only [step, performNext, andThen_eq_next]
  constructor
  · rintro ⟨⟨u, r⟩, h, ht⟩
    exact ⟨u, r, h, by cases ht; rfl⟩
  · rintro ⟨u, r, h, rfl⟩
    exact ⟨(u, r), h, rfl⟩

/-- A run of one step more: the step, then the run. -/
theorem run_succ {s t : State} (n : Nat) (h : step s = .next t) :
    Host.Core.run Sys2Proof.core (n + 1) s = Host.Core.run Sys2Proof.core n t := by
  have h' : Sys2Proof.core.step s = .next t := h
  simp only [Host.Core.run]
  rw [h']

end Sys2Proof.Machine
end

