-- ==== Sys2Proof/Laws/Flags.lean ====
section
/-! SUPPORT. What each test of a conditional instruction says, as a proposition, and what popping a
process queue gives. -/

namespace Sys2Proof.Machine

theorem allZero_iff (m : Modifier) (dst : Instr) :
    allZero m dst = true ↔ ∀ d ∈ dstFields m, readField dst d = 0 := by
  simp only [allZero, List.all_eq_true, beq_iff_eq]

theorem allNonZero_iff (m : Modifier) (dst : Instr) :
    allNonZero m dst = true ↔ ∀ d ∈ dstFields m, readField dst d ≠ 0 := by
  simp only [allNonZero, List.all_eq_true, bne_iff_ne]

theorem equalOperands_whole (src dst : Instr) :
    equalOperands .i src dst = true ↔ src = dst := by
  simp only [equalOperands, beq_iff_eq]

theorem equalOperands_fields {m : Modifier} (hm : m ≠ .i) (src dst : Instr) :
    equalOperands m src dst = true ↔
      ∀ q ∈ pairs m, readField src q.1 = readField dst q.2 := by
  cases m <;>
    first
    | exact absurd rfl hm
    | simp only [equalOperands, List.all_eq_true, beq_iff_eq]

theorem allGreater_iff (m : Modifier) (src dst : Instr) :
    allGreater m src dst = true ↔ ∀ q ∈ pairs m, readField src q.1 < readField dst q.2 := by
  simp only [allGreater, List.all_eq_true, decide_eq_true_eq]

/-! ### The front of a queue (`00_scope.md` R13) -/

theorem State.popFront_nil {s : State} {k : Player} (h : s.queue.get k = []) :
    s.popFront k = none := by
  simp only [State.popFront, h]

theorem State.popFront_cons {s : State} {k : Player} {p : Nat} {q : List Nat}
    (h : s.queue.get k = p :: q) :
    s.popFront k = some (p, { s with queue := s.queue.set k q }) := by
  simp only [State.popFront, h]

@[simp] theorem State.pushBack_processCount (s : State) (k : Player) (a : Nat) :
    (s.pushBack k a).processCount k = s.processCount k + 1 := by
  simp [State.processCount]

end Sys2Proof.Machine
end

