-- ==== Sys2Proof/Laws/PerInstr.lean ====
section
/-! SUPPORT. Facts about every Instruction as syntax, one lemma per constructor: its record has 12
bytes and begins with its own opcode tag, and reducing its values makes it fit the core. -/

namespace Sys2Proof.Laws.RecordShape

/-- The record of `i` is 12 bytes, byte 0 names its opcode, and `i` with reduced values keeps its
opcode and fits a core of any size above 0. -/
def Statement (i : Instr) : Prop :=
  (encode i).length = 12 ∧ ((encode i).head?.map fun b => opcodeOfTag b.toNat) = some (some i.op) ∧
  ∀ size, 0 < size →
    (Machine.normalize size i).op = i.op ∧ (Machine.normalize size i).fitsCore size

/-- The part of `Statement` that does not depend on the opcode. -/
theorem normalize_fits (i : Instr) (size : Nat) (h : 0 < size) :
    (Machine.normalize size i).op = i.op ∧ (Machine.normalize size i).fitsCore size := by
  refine ⟨Machine.normalize_op i size, ?_, ?_⟩ <;> rw [Machine.normalize_fields]
  · exact Machine.fmod_lt (i.fields.aVal : Int) h
  · exact Machine.fmod_lt (i.fields.bVal : Int) h

theorem kil (f : Fields) : Statement (.kil f) := ⟨rfl, rfl, normalize_fits _⟩
theorem frk (f : Fields) : Statement (.frk f) := ⟨rfl, rfl, normalize_fits _⟩
theorem nop (f : Fields) : Statement (.nop f) := ⟨rfl, rfl, normalize_fits _⟩
theorem mov (f : Fields) : Statement (.mov f) := ⟨rfl, rfl, normalize_fits _⟩
theorem add (f : Fields) : Statement (.add f) := ⟨rfl, rfl, normalize_fits _⟩
theorem sub (f : Fields) : Statement (.sub f) := ⟨rfl, rfl, normalize_fits _⟩
theorem mul (f : Fields) : Statement (.mul f) := ⟨rfl, rfl, normalize_fits _⟩
theorem div (f : Fields) : Statement (.div f) := ⟨rfl, rfl, normalize_fits _⟩
theorem mod (f : Fields) : Statement (.mod f) := ⟨rfl, rfl, normalize_fits _⟩
theorem jmp (f : Fields) : Statement (.jmp f) := ⟨rfl, rfl, normalize_fits _⟩
theorem jmz (f : Fields) : Statement (.jmz f) := ⟨rfl, rfl, normalize_fits _⟩
theorem jmn (f : Fields) : Statement (.jmn f) := ⟨rfl, rfl, normalize_fits _⟩
theorem beq (f : Fields) : Statement (.beq f) := ⟨rfl, rfl, normalize_fits _⟩
theorem bne (f : Fields) : Statement (.bne f) := ⟨rfl, rfl, normalize_fits _⟩
theorem blt (f : Fields) : Statement (.blt f) := ⟨rfl, rfl, normalize_fits _⟩

end Sys2Proof.Laws.RecordShape
end

