-- ==== Sys2Proof/Tests/Slice0.lean ====
section
/-! SUPPORT. Tests: the well-formedness smoke tests, one record per opcode, small steps, the
assembler, and the witnesses `witness_<statement>`, which show that what a statement assumes can be
met. Expected values are those of `95_test_vectors.md` (sections in brackets) or worked by hand from
the rule named. -/

set_option maxRecDepth 20000

namespace Sys2Proof.Tests

open Sys2Proof.Machine Sys2Proof.Assembly Sys2Proof.Spec

/-! ### Well-formedness: each check refuses a term (30_encoding R96, 10_state R21) -/

theorem test_encodable_refuses_aVal : ¬ (Instr.nop ⟨.f, .dir, .dir, 4294967296, 0⟩).encodable := by
  decide
theorem test_encodable_refuses_bVal : ¬ (Instr.nop ⟨.f, .dir, .dir, 0, 4294967296⟩).encodable := by
  decide
theorem test_encodable_accepts_the_largest :
    (Instr.jmn ⟨.ba, .dir, .dir, 4294967295, 4294967295⟩).encodable := by decide
theorem test_fitsCore_refuses_aVal : ¬ (Instr.nop ⟨.f, .dir, .dir, 8000, 0⟩).fitsCore 8000 := by
  decide
theorem test_fitsCore_refuses_bVal : ¬ (Instr.nop ⟨.f, .dir, .dir, 0, 8000⟩).fitsCore 8000 := by
  decide
theorem test_fitsCore_accepts_the_largest :
    (Instr.nop ⟨.f, .dir, .dir, 7999, 7999⟩).fitsCore 8000 := by decide

/-! ### Decoding: each rejection, then one record per opcode (2.2, 2.9) -/

theorem test_decode_rejects_opcode_15 :
    decode [0x0F, 1, 1, 0, 0, 0, 0, 0, 0, 0, 0, 0] = .error .opcodeTag := by decide
theorem test_decode_rejects_modifier_7 :
    decode [9, 7, 1, 0, 0, 0, 0, 0, 0, 0, 0, 0] = .error .modifierTag := by decide
theorem test_decode_rejects_aMode_4 :
    decode [9, 1, 4, 0, 0, 0, 0, 0, 0, 0, 0, 0] = .error .aModeTag := by decide
theorem test_decode_rejects_bMode_4 :
    decode [9, 1, 1, 4, 0, 0, 0, 0, 0, 0, 0, 0] = .error .bModeTag := by decide
theorem test_decode_rejects_eleven_bytes :
    decode [0, 0, 0, 0, 0, 0, 0, 0, 0, 0, 0] = .error .wrongLength := by decide

theorem test_decode_kil : decode [0x00, 0x04, 0x01, 0x01, 0x0A, 0, 0, 0, 0x0A, 0, 0, 0] =
    .ok (.kil ⟨.f, .dir, .dir, 10, 10⟩) := by decide
theorem test_decode_frk : decode [0x01, 0x01, 0x03, 0x01, 0x03, 0, 0, 0, 0x07, 0, 0, 0] =
    .ok (.frk ⟨.b, .bin, .dir, 3, 7⟩) := by decide
theorem test_decode_nop : decode [0x02, 0x04, 0x00, 0x00, 0x01, 0, 0, 0, 0x02, 0, 0, 0] =
    .ok (.nop ⟨.f, .imm, .imm, 1, 2⟩) := by decide
theorem test_decode_mov : decode [0x03, 0x05, 0x01, 0x02, 0x3F, 0x1F, 0, 0, 0x01, 0, 0, 0] =
    .ok (.mov ⟨.x, .dir, .ain, 7999, 1⟩) := by decide
theorem test_decode_add : decode [0x04, 0x02, 0x00, 0x01, 0x78, 0x56, 0x34, 0x12, 0x01, 0, 0, 0] =
    .ok (.add ⟨.ab, .imm, .dir, 305419896, 1⟩) := by decide
theorem test_decode_sub : decode [0x05, 0x01, 0x01, 0x00, 0x01, 0, 0, 0, 0x02, 0, 0, 0] =
    .ok (.sub ⟨.b, .dir, .imm, 1, 2⟩) := by decide
theorem test_decode_mul : decode [0x06, 0x04, 0x01, 0x01, 0x01, 0, 0, 0, 0x02, 0, 0, 0] =
    .ok (.mul ⟨.f, .dir, .dir, 1, 2⟩) := by decide
theorem test_decode_div : decode [0x07, 0x04, 0x03, 0x02, 0x01, 0, 0, 0, 0x02, 0, 0, 0] =
    .ok (.div ⟨.f, .bin, .ain, 1, 2⟩) := by decide
theorem test_decode_mod : decode [0x08, 0x02, 0x00, 0x00, 0x00, 0, 0, 0, 0x00, 0, 0, 0] =
    .ok (.mod ⟨.ab, .imm, .imm, 0, 0⟩) := by decide
theorem test_decode_jmp : decode [0x09, 0x01, 0x03, 0x00, 0x3F, 0x1F, 0, 0, 0x00, 0, 0, 0] =
    .ok (.jmp ⟨.b, .bin, .imm, 7999, 0⟩) := by decide
theorem test_decode_jmz : decode [0x0A, 0x01, 0x01, 0x01, 0x03, 0, 0, 0, 0x04, 0, 0, 0] =
    .ok (.jmz ⟨.b, .dir, .dir, 3, 4⟩) := by decide
theorem test_decode_jmn : decode [0x0B, 0x03, 0x01, 0x01, 0xFF, 0xFF, 0xFF, 0xFF, 0, 0, 0, 0] =
    .ok (.jmn ⟨.ba, .dir, .dir, 4294967295, 0⟩) := by decide
theorem test_decode_beq : decode [0x0C, 0x02, 0x00, 0x01, 0x01, 0, 0, 0, 0x02, 0, 0, 0] =
    .ok (.beq ⟨.ab, .imm, .dir, 1, 2⟩) := by decide
theorem test_decode_bne : decode [0x0D, 0x06, 0x02, 0x03, 0x01, 0, 0, 0, 0x02, 0, 0, 0] =
    .ok (.bne ⟨.i, .ain, .bin, 1, 2⟩) := by decide
theorem test_decode_blt : decode [0x0E, 0x06, 0x03, 0x02, 0x3F, 0x1F, 0, 0, 0x34, 0x12, 0, 0] =
    .ok (.blt ⟨.i, .bin, .ain, 7999, 4660⟩) := by decide

/-- The row of 2.2 as the 96-bit word printed there. -/
theorem test_decodeTableWord :
    decodeTableWord 96 0x0000123400001F3F0203060E = some (.blt ⟨.i, .bin, .ain, 7999, 4660⟩) := by
  decide
/-- A word of fewer bits than a record: the bits above it are 0. -/
theorem test_decodeTableWord_short :
    decodeTableWord 8 0x09 = some (.jmp ⟨.a, .imm, .imm, 0, 0⟩) := by decide
theorem test_decodeTableWord_reserved : decodeTableWord 8 0x0F = none := by decide

/-- 2.2: a bad tag in the second record ends the stream after the first. -/
theorem test_decodeProgram_stops :
    decodeProgram [3, 6, 1, 1, 0, 0, 0, 0, 1, 0, 0, 0, 9, 1, 4, 0, 0x3F, 0x1F, 0, 0, 0, 0, 0, 0] =
      [.mov ⟨.i, .dir, .dir, 0, 1⟩] := by decide

/-! ### Small steps: a helper state, then at most two tests per instruction -/

/-- A core of 8000 cells; player 1's one process stands at `p`, player 1 is on turn. -/
def small (core : List Cell) (p : Nat) (q : List Nat := []) (cap : Nat := 64) : State :=
  { State.resetWith ⟨8000, 100, cap, .intermediate, by decide, by decide⟩ with
    core := core, queue := ⟨p :: q, []⟩, loaded := ⟨true, false⟩ }

/-- What a test looks at: the cell at `a`, player 1's queue, the event and the address written. -/
def look (a : Nat) (o : Host.Outcome State Fault Refusal) :
    Option (Instr × List Nat × Event × Option Nat) :=
  match o with
  | .next t => some (t.readCell a, t.queue.p1, t.report.p1.event, t.report.p1.written)
  | _ => none

/-- The set-up of 2.4 and 2.5: `i` at 100, source and destination cells behind it. -/
def arith (i src dst : Instr) : State := small [(100, i), (101, src), (102, dst)] 100

/-- `KIL.F $a, $b`. -/
def data (a b : Nat) : Instr := .kil ⟨.f, .dir, .dir, a, b⟩

/-- The destination cell of 2.4, `NOP.X *a, @b`. -/
def dest (a b : Nat) : Instr := .nop ⟨.x, .ain, .bin, a, b⟩

/-- The fields `$1, $2` under modifier `m`. -/
def f12 (m : Modifier) : Fields := ⟨m, .dir, .dir, 1, 2⟩

/-- The outcome of `i` in the set-up of 2.4. -/
def run24 (i : Instr) : Option (Instr × List Nat × Event × Option Nat) :=
  look 102 (exec i (arith i (data 7000 3) (dest 2000 5)))

/-- The outcome of `i` with the source fields (0, 4) of 2.6. -/
def run26 (i : Instr) : Option (Instr × List Nat × Event × Option Nat) :=
  look 102 (exec i (arith i (data 0 4) (data 9 9)))

theorem test_kil : look 10 (exec (data 0 0) (small [(10, data 0 0)] 10 [20])) =
    some (data 0 0, [20], .killed, none) := by decide
theorem test_frk_below_cap :
    look 10 (exec (.frk ⟨.b, .dir, .imm, 5, 0⟩) (small [] 10 [20] 3)) =
      some (Instr.dflt, [20, 11, 15], .forked, none) := by decide
theorem test_frk_at_cap :
    look 10 (exec (.frk ⟨.b, .dir, .imm, 5, 0⟩) (small [] 10 [20] 2)) =
      some (Instr.dflt, [20, 11], .forkDropped, none) := by decide
theorem test_nop_wraps : look 0 (exec (.nop ⟨.f, .dir, .dir, 0, 0⟩) (small [] 7999)) =
    some (Instr.dflt, [0], .none, none) := by decide
theorem test_mov_x : run24 (.mov (f12 .x)) = some (dest 3 7000, [101], .none, some 102) := by
  decide
theorem test_mov_i : run24 (.mov (f12 .i)) = some (data 7000 3, [101], .none, some 102) := by
  decide
theorem test_add_f : run24 (.add (f12 .f)) = some (dest 1000 8, [101], .none, some 102) := by
  decide
theorem test_sub_ab : run24 (.sub (f12 .ab)) = some (dest 2000 1005, [101], .none, some 102) := by
  decide
theorem test_mul_ab : run24 (.mul (f12 .ab)) = some (dest 2000 3000, [101], .none, some 102) := by
  decide
theorem test_div_ba : run24 (.div (f12 .ba)) = some (dest 666 5, [101], .none, some 102) := by
  decide
theorem test_div_x_one_zero : run26 (.div (f12 .x)) = some (data 2 9, [], .killed, some 102) := by
  decide
theorem test_mod_x : run24 (.mod (f12 .x)) = some (dest 2 5, [101], .none, some 102) := by decide
theorem test_mod_a_zero : run26 (.mod (f12 .a)) = some (data 9 9, [], .killed, none) := by decide
theorem test_jmp_indirect :
    look 105 (exec (.jmp ⟨.b, .bin, .imm, 5, 0⟩) (small [(105, data 3 7)] 100)) =
      some (data 3 7, [112], .none, none) := by decide
theorem test_jmz_ba :
    look 102 (exec (.jmz ⟨.ba, .dir, .dir, 10, 2⟩) (small [(102, data 0 5)] 100)) =
      some (data 0 5, [110], .none, none) := by decide
theorem test_jmz_f :
    look 102 (exec (.jmz ⟨.f, .dir, .dir, 10, 2⟩) (small [(102, data 0 5)] 100)) =
      some (data 0 5, [101], .none, none) := by decide
theorem test_jmn_ab :
    look 102 (exec (.jmn ⟨.ab, .dir, .dir, 10, 2⟩) (small [(102, data 0 5)] 100)) =
      some (data 0 5, [110], .none, none) := by decide
theorem test_jmn_f :
    look 102 (exec (.jmn ⟨.f, .dir, .dir, 10, 2⟩) (small [(102, data 0 5)] 100)) =
      some (data 0 5, [101], .none, none) := by decide
theorem test_beq_i_compares_modes :
    look 102 (exec (.beq (f12 .i))
      (arith (.beq (f12 .i)) (data 5 9) (.kil ⟨.f, .imm, .dir, 5, 9⟩))) =
      some (.kil ⟨.f, .imm, .dir, 5, 9⟩, [101], .none, none) := by decide
theorem test_beq_x :
    look 102 (exec (.beq (f12 .x)) (arith (.beq (f12 .x)) (data 5 9) (data 9 5))) =
      some (data 9 5, [102], .none, none) := by decide
theorem test_bne_ab :
    look 102 (exec (.bne (f12 .ab)) (arith (.bne (f12 .ab)) (data 5 9) (data 6 9))) =
      some (data 6 9, [102], .none, none) := by decide
theorem test_blt_x :
    look 102 (exec (.blt (f12 .x)) (arith (.blt (f12 .x)) (data 5 9) (data 10 6))) =
      some (data 10 6, [102], .none, none) := by decide
theorem test_blt_f :
    look 102 (exec (.blt (f12 .f)) (arith (.blt (f12 .f)) (data 5 9) (data 10 6))) =
      some (data 10 6, [101], .none, none) := by decide

/-- 2.1: addresses through both indirect modes, with the set of addresses read. -/
theorem test_indirect_operands :
    let o := operandsOf ⟨.f, .bin, .ain, 7990, 7995⟩ 100
      (small [(90, data 7999 15), (95, data 7990 1)] 100)
    (o.ps, o.pd, o.reads) = (105, 85, [85, 90, 95, 105]) := by decide

/-! ### Commands -/

/-- 2.2: load normalisation and a negative offset, in a core of 10 cells. -/
theorem test_load_normalises :
    (match loadProgram [.add ⟨.ab, .imm, .dir, 4294967295, 23⟩] (-3) .p2
        (State.resetWith ⟨10, 5, 64, .intermediate, by decide, by decide⟩) with
      | .ok t => (t.readCell 7, t.queue.p2)
      | .error _ => (Instr.dflt, [])) = (.add ⟨.ab, .imm, .dir, 5, 3⟩, [7]) := by decide

/-- A table word placed in the reset state is what the next step executes. -/
theorem test_withFetchWord :
    (match step (State.reset.withFetchWord 96 0x000000000000000201010603) with
      | .next t => (t.report.p1.execInstr, t.readCell 0, t.queue.p1, t.currentCycle)
      | _ => (Instr.dflt, Instr.dflt, [], 0)) =
      (.mov ⟨.i, .dir, .dir, 2, 0⟩, Instr.dflt, [1], 1) := by decide

/-- 2.12, first row's first call: `JMP $0` alone goes on. -/
theorem test_step_jmp_alone :
    (match step (small [(0, .jmp ⟨.b, .dir, .imm, 0, 0⟩)] 0) with
      | .next t => (t.roundState, t.queue.p1, t.currentCycle, t.response)
      | _ => (.draw, [], 0, none)) = (.ongoing, [0], 1, some (.round .ongoing)) := by decide

/-! ### The assembler (2.10, 2.11) -/

theorem test_labels :
    assemble 8000 "l1:\nl2:\n nop l1, l2\nl3:\n jmp l3 ;x".toList =
      .ok [.nop ⟨.f, .dir, .dir, 0, 0⟩, .jmp ⟨.b, .dir, .imm, 0, 0⟩] := by decide
theorem test_assembler_errors :
    assemble 8000 "kil 0, 0 ; fine\nbad 1, 2\nmov 1\nmov #lab, 1\nlab: frk 1,\nmov +1, 2".toList =
      .failed [(2, .invalidInstruction), (3, .missingArgument), (4, .labelWithImmediate),
        (5, .missingArgument), (6, .malformedNumber)] := by decide
theorem test_assembler_more_errors :
    assemble 8000 "mov.q 1, 2\nmov nolab, 1\nmov 1, 2 3\na: kil 0,0\na: kil 0,0".toList =
      .failed [(1, .invalidModifier), (2, .unknownLabel), (3, .tooManyArguments),
        (5, .duplicateLabel)] := by decide
theorem test_second_label_is_no_mnemonic :
    assemble 8000 "a: b: nop 0,0".toList = .failed [(1, .invalidInstruction)] := by decide

/-! ### Witnesses: encoding -/

theorem witness_DecodeFollowsTheRecordAndInvertsEncode :
    (14 < (0x0F : Byte).toNat) ∧ ¬ (14 < (0x0E : Byte).toNat ∨ 6 < (0x06 : Byte).toNat ∨
      3 < (0x03 : Byte).toNat ∨ 3 < (0x03 : Byte).toNat) ∧
    (Instr.blt ⟨.i, .bin, .bin, 4294967295, 4294967295⟩).encodable := by decide
theorem witness_EncodeInvertsDecode :
    decode [0x0E, 6, 3, 3, 0xFF, 0xFF, 0xFF, 0xFF, 0xFF, 0xFF, 0xFF, 0xFF] =
      .ok (.blt ⟨.i, .bin, .bin, 4294967295, 4294967295⟩) := by decide
theorem witness_StreamReaderStopsAtTheFirstBadRecord :
    (decodeProgram [9, 1, 1, 0, 0x3F, 0x1F, 0, 0, 0, 0, 0, 0, 3])[0]? =
      some (.jmp ⟨.b, .dir, .imm, 7999, 0⟩) := by decide
theorem witness_BinaryLoadEqualsListLoad :
    assemble (small [] 0).cfg.coreSize "mov.i 0, 1".toList = .ok [.mov ⟨.i, .dir, .dir, 0, 1⟩] := by
  decide
theorem witness_FmodIsFloorModulo :
    0 < 10 ∧ 9 < 10 ∧ ((10 : Nat) : Int) ∣ (-21) - ((9 : Nat) : Int) ∧ fmod (-21) 10 = 9 := by
  decide
theorem witness_CanonicalCoresWithEqualCellsAreEqual :
    CoreWf [(3, data 1 2), (7, dest 0 0)] ∧
    coreWrite (coreWrite [] 7 (dest 0 0)) 3 (data 1 2) = [(3, data 1 2), (7, dest 0 0)] := by decide
theorem witness_ResolveFollowsTheFourModes : 7999 < (small [] 0).cfg.coreSize := by decide

/-! ### Witnesses: process steps. `NOP.F $0, $0` or the instruction named stands at the front. -/

theorem witness_KilEndsTheProcess : (small [(10, data 0 0)] 10 [20]).Front .p1 10 [20] := by decide
theorem witness_FrkStartsAProcessBelowTheCap :
    ((small [] 10 [20] 3).Front .p1 10 [20] ∧
      [20].length + 1 < (small [] 10 [20] 3).cfg.maxProcesses) ∧
    ((small [] 10 [20] 2).Front .p1 10 [20] ∧
      (small [] 10 [20] 2).cfg.maxProcesses ≤ [20].length + 1) := by decide
theorem witness_NopContinuesAtTheNextCell : (small [] 7999).Front .p1 7999 [] := by decide
theorem witness_MovCopiesTheSelectedFields :
    (arith (.mov (f12 .i)) (data 7000 3) (dest 2000 5)).Front .p1 100 [] ∧ (f12 .i).mod = .i ∧
    (f12 .x).mod ≠ .i := by decide
theorem witness_AddWritesTheSumModuloTheCoreSize :
    (arith (.add (f12 .f)) (data 7999 3) (dest 2 5)).Front .p1 100 [] := by decide
theorem witness_SubWritesTheDifferenceModuloTheCoreSize :
    (arith (.sub (f12 .f)) (data 7999 3) (dest 0 3)).Front .p1 100 [] := by decide
theorem witness_MulWritesTheProductModuloTheCoreSize :
    (arith (.mul (f12 .f)) (data 7999 3) (dest 7999 0)).Front .p1 100 [] := by decide

/-- No zero divisor, one of two, both of two: the three clauses of `DIV` and `MOD`. -/
theorem witness_DivWritesTheQuotientOrKills :
    let a := arith (.div (f12 .f)) (data 1 4) (data 9 9)
    let b := arith (.div (f12 .f)) (data 0 4) (data 9 9)
    let c := arith (.div (f12 .f)) (data 0 0) (data 9 9)
    (a.Front .p1 100 [] ∧ ¬ ZeroDivisor .f (operandsOf (f12 .f) 100 a).src) ∧
    (b.Front .p1 100 [] ∧ ZeroDivisor .f (operandsOf (f12 .f) 100 b).src ∧
      ¬ OnlyZeroDivisors .f (operandsOf (f12 .f) 100 b).src) ∧
    (c.Front .p1 100 [] ∧ OnlyZeroDivisors .f (operandsOf (f12 .f) 100 c).src) := by
  simp only [ZeroDivisor, OnlyZeroDivisors]
  decide
theorem witness_ModWritesTheRemainderOrKills :
    let a := arith (.mod (f12 .x)) (data 7999 4) (data 9 9)
    let b := arith (.mod (f12 .x)) (data 7 0) (data 9 9)
    let c := arith (.mod (f12 .x)) (data 0 0) (data 9 9)
    (a.Front .p1 100 [] ∧ ¬ ZeroDivisor .x (operandsOf (f12 .x) 100 a).src) ∧
    (b.Front .p1 100 [] ∧ ZeroDivisor .x (operandsOf (f12 .x) 100 b).src ∧
      ¬ OnlyZeroDivisors .x (operandsOf (f12 .x) 100 b).src) ∧
    (c.Front .p1 100 [] ∧ OnlyZeroDivisors .x (operandsOf (f12 .x) 100 c).src) := by
  simp only [ZeroDivisor, OnlyZeroDivisors]
  decide
theorem witness_JmpContinuesAtTheSourceAddress :
    (small [(3, .jmp ⟨.b, .bin, .imm, 7999, 0⟩), (2, data 0 7998)] 3).Front .p1 3 [] := by decide
theorem witness_JmzJumpsWhenAllSelectedFieldsAreZero :
    let a := arith (.jmz (f12 .f)) (data 1 1) (data 0 0)
    let b := arith (.jmz (f12 .f)) (data 1 1) (data 0 1)
    (a.Front .p1 100 [] ∧ EveryField (· = 0) .f (operandsOf (f12 .f) 100 a).dst) ∧
    (b.Front .p1 100 [] ∧ ¬ EveryField (· = 0) .f (operandsOf (f12 .f) 100 b).dst) := by
  simp only [EveryField]
  decide
theorem witness_JmnJumpsWhenAllSelectedFieldsAreNonZero :
    let a := arith (.jmn (f12 .f)) (data 1 1) (data 1 7999)
    let b := arith (.jmn (f12 .f)) (data 1 1) (data 0 1)
    (a.Front .p1 100 [] ∧ EveryField (· ≠ 0) .f (operandsOf (f12 .f) 100 a).dst) ∧
    (b.Front .p1 100 [] ∧ ¬ EveryField (· ≠ 0) .f (operandsOf (f12 .f) 100 b).dst) := by
  simp only [EveryField]
  decide
theorem witness_BeqSkipsWhenEqual :
    let a := arith (.beq (f12 .i)) (data 5 9) (data 5 9)
    let b := arith (.beq (f12 .i)) (data 5 9) (dest 5 9)
    (a.Front .p1 100 [] ∧
      Equal .i (operandsOf (f12 .i) 100 a).src (operandsOf (f12 .i) 100 a).dst) ∧
    (b.Front .p1 100 [] ∧
      ¬ Equal .i (operandsOf (f12 .i) 100 b).src (operandsOf (f12 .i) 100 b).dst) := by
  simp only [Equal]
  decide
theorem witness_BneSkipsWhenNotEqual :
    let a := arith (.bne (f12 .x)) (data 5 9) (data 9 5)
    let b := arith (.bne (f12 .x)) (data 5 9) (data 9 6)
    (a.Front .p1 100 [] ∧
      Equal .x (operandsOf (f12 .x) 100 a).src (operandsOf (f12 .x) 100 a).dst) ∧
    (b.Front .p1 100 [] ∧
      ¬ Equal .x (operandsOf (f12 .x) 100 b).src (operandsOf (f12 .x) 100 b).dst) := by
  simp only [Equal]
  decide
theorem witness_BltSkipsWhenTheDestinationIsGreater :
    let a := arith (.blt (f12 .b)) (data 0 4) (data 0 5)
    let b := arith (.blt (f12 .b)) (data 0 4) (data 0 4)
    (a.Front .p1 100 [] ∧
      Greater .b (operandsOf (f12 .b) 100 a).src (operandsOf (f12 .b) 100 a).dst) ∧
    (b.Front .p1 100 [] ∧
      ¬ Greater .b (operandsOf (f12 .b) 100 b).src (operandsOf (f12 .b) 100 b).dst) := by
  simp only [Greater]
  decide

/-- An empty queue, a front process at the first address outside the core, one at the last inside. -/
theorem witness_EveryInstructionRunsAtAFrontProcess :
    (State.reset.queue.get State.reset.turn = []) ∧
    ((small [] 8000).queue.get .p1 = [8000] ∧ (small [] 8000).cfg.coreSize ≤ 8000) ∧
    (small [] 7999).Front .p1 7999 [] := by decide

/-- A step with a next state: what the statements over `exec i s = .next t` assume. -/
theorem witness_OnlyTheSelectedFieldsOfOneCellChange :
    let s := arith (.add (f12 .ba)) (data 7000 3) (dest 2000 5)
    s.Front s.turn 100 [] ∧ (∃ t, exec (.add (f12 .ba)) s = .next t) ∧
    (Instr.add (f12 .ba)).fields.mod = .ba := ⟨by decide, ⟨_, rfl⟩, rfl⟩
theorem witness_EveryInstructionKillsContinuesOrForks :
    let s := small [] 10 [20] 3
    s.Front s.turn 10 [20] ∧ ∃ t, exec (.frk (f12 .b)) s = .next t := ⟨by decide, ⟨_, rfl⟩⟩
theorem witness_NoInstructionTouchesControlState :
    ∃ t, exec (.div (f12 .f)) (arith (.div (f12 .f)) (data 0 4) (data 9 9)) = .next t := ⟨_, rfl⟩

/-- A core of 4 cells, player 1 at `p`, both players loaded, player 2 at `q`. -/
def tiny (core : List Cell) (p q cycles : Nat) : State :=
  { State.resetWith ⟨4, cycles, 64, .intermediate, by decide, by decide⟩ with
    core := core, queue := ⟨[p], [q]⟩, loaded := ⟨true, true⟩ }

/-- `ADD.AB #1, $1`, which continues, and `JMP.B $0, #0`, which stays. -/
def addNext : Instr := .add ⟨.ab, .imm, .dir, 1, 1⟩
def stay : Instr := .jmp ⟨.b, .dir, .imm, 0, 0⟩

theorem witness_ExecutionIsPositionIndependent :
    Rotated 3 (tiny [(0, addNext), (2, stay)] 0 2 9) (tiny [(1, stay), (3, addNext)] 3 1 9) ∧
    (∃ t, exec addNext (tiny [(0, addNext), (2, stay)] 0 2 9) = .next t) ∧
    ∃ t, executeCycle (tiny [(0, addNext), (2, stay)] 0 2 9) = .next t :=
  ⟨⟨rfl, rfl, rfl, rfl, rfl, by decide, fun k => by cases k <;> decide⟩, ⟨_, rfl⟩, ⟨_, rfl⟩⟩

/-! ### Witnesses: the step of the machine and the scheduler -/

/-- The three ways a cycle goes on after player 1's step. -/
theorem witness_StepRunsTheFetchedInstruction :
    let lost := tiny [(2, stay)] 0 2 9
    let alone := small [(0, stay)] 0
    let both := tiny [(0, stay), (2, addNext)] 0 2 1
    (lost.pending = [] ∧ lost.roundState = .ongoing ∧ lost.currentCycle < lost.cfg.maxCycles ∧
      lost.loaded.p1 = true ∧ lost.Front .p1 0 [] ∧
      ∃ t, exec (lost.readCell 0) (cycleStart lost) = .next t ∧ t.queue.p1 = []) ∧
    (alone.pending = [] ∧ alone.roundState = .ongoing ∧
      alone.currentCycle < alone.cfg.maxCycles ∧ alone.loaded.p1 = true ∧
      alone.Front .p1 0 [] ∧ alone.loaded.p2 = false ∧
      ∃ t, exec (alone.readCell 0) (cycleStart alone) = .next t ∧ t.queue.p1 ≠ []) ∧
    (both.pending = [] ∧ both.roundState = .ongoing ∧ both.currentCycle < both.cfg.maxCycles ∧
      both.loaded.p1 = true ∧ both.Front .p1 0 [] ∧ both.loaded.p2 = true ∧
      ∃ t, exec (both.readCell 0) (cycleStart both) = .next t ∧ t.queue.p1 ≠ [] ∧
        t.Front .p2 2 [] ∧
        ∃ u, exec (t.readCell 2) { t with turn := .p2 } = .next u ∧ u.queue.p2 ≠ []) :=
  ⟨⟨rfl, rfl, by decide, rfl, by decide, _, rfl, by decide⟩,
    ⟨rfl, rfl, by decide, rfl, by decide, rfl, _, rfl, by decide⟩,
    ⟨rfl, rfl, by decide, rfl, by decide, rfl, _, rfl, by decide, by decide, _, rfl, by decide⟩⟩

/-- Player 2's step empties its queue (the last clause of the statement above). -/
theorem witness_StepRunsTheFetchedInstruction_second_loss :
    let s := tiny [(0, stay)] 0 2 9
    s.pending = [] ∧ s.roundState = .ongoing ∧ s.currentCycle < s.cfg.maxCycles ∧
    s.loaded.p1 = true ∧ s.loaded.p2 = true ∧ s.Front .p1 0 [] ∧
    ∃ t, exec (s.readCell 0) (cycleStart s) = .next t ∧ t.queue.p1 ≠ [] ∧ t.Front .p2 2 [] ∧
      ∃ u, exec (t.readCell 2) { t with turn := .p2 } = .next u ∧ u.queue.p2 = [] :=
  ⟨rfl, rfl, by decide, rfl, rfl, by decide, _, rfl, by decide, by decide, _, rfl, by decide⟩

/-- `tiny` with only player 2 loaded, its process at 2. -/
def second (core : List Cell) : State :=
  { tiny core 0 2 9 with queue := ⟨[], [2]⟩, loaded := ⟨false, true⟩ }

theorem witness_StepRunsPlayerTwoAlone :
    let a := second []
    let b := second [(2, stay)]
    (a.pending = [] ∧ a.roundState = .ongoing ∧ a.currentCycle < a.cfg.maxCycles ∧
      a.loaded.p1 = false ∧ a.loaded.p2 = true ∧ a.Front .p2 2 [] ∧
      ∃ t, exec (a.readCell 2) { cycleStart a with turn := .p2 } = .next t ∧ t.queue.p2 = []) ∧
    (b.pending = [] ∧ b.roundState = .ongoing ∧ b.currentCycle < b.cfg.maxCycles ∧
      b.loaded.p1 = false ∧ b.loaded.p2 = true ∧ b.Front .p2 2 [] ∧
      ∃ t, exec (b.readCell 2) { cycleStart b with turn := .p2 } = .next t ∧ t.queue.p2 ≠ []) :=
  ⟨⟨rfl, rfl, by decide, rfl, rfl, by decide, _, rfl, by decide⟩,
    ⟨rfl, rfl, by decide, rfl, rfl, by decide, _, rfl, by decide⟩⟩
theorem witness_TableWordIsFetchedNext :
    decodeTableWord 8 0x0E = some (.blt ⟨.a, .imm, .imm, 0, 0⟩) ∧
    0 < State.reset.cfg.maxCycles := by decide
theorem witness_PlayerOneLosesAtOnce :
    let s := tiny [(2, stay)] 0 2 1
    s.roundState = .ongoing ∧ s.currentCycle < s.cfg.maxCycles ∧ s.loaded.p1 = true ∧
    s.Front .p1 0 [] ∧ ∃ t, exec (s.readCell 0) (cycleStart s) = .next t ∧ t.queue.p1 = [] :=
  ⟨rfl, by decide, rfl, by decide, _, rfl, by decide⟩
theorem witness_PlayerTwoLosesAtOnce :
    let s := tiny [(0, stay)] 0 2 1
    (s.roundState = .ongoing ∧ s.currentCycle < s.cfg.maxCycles ∧
      ∃ s1, playerTurn .p1 { s with currentCycle := s.currentCycle + 1 } = .next s1 ∧
        s1.roundState = .ongoing ∧ s1.loaded.p2 = true ∧ s1.Front .p2 2 [] ∧
        ∃ t, exec (s1.readCell 2) { s1 with turn := .p2 } = .next t ∧ t.queue.p2 = []) ∧
    ∃ t, exec (.kil (f12 .a)) s = .next t ∧ s.queue.get .p1 ≠ [] ∧ t.queue.get .p1 = [] :=
  ⟨⟨rfl, by decide, _, rfl, by decide, rfl, by decide, _, rfl, by decide⟩,
    _, rfl, by decide, by decide⟩

/-- The last cycle without a loss, a cycle before the last, and a draw made by a command. -/
theorem witness_DrawExactlyAtTheCycleLimit :
    let last := tiny [(0, stay), (2, stay)] 0 2 1
    let early := tiny [(0, stay), (2, stay)] 0 2 2
    (last.roundState = .ongoing ∧ last.currentCycle < last.cfg.maxCycles ∧
      ∃ t, executeCycle last = .next t ∧ t.roundState = .draw) ∧
    (early.roundState = .ongoing ∧ early.currentCycle < early.cfg.maxCycles ∧
      ∃ t, executeCycle early = .next t ∧ t.roundState = .ongoing) ∧
    ∃ t r, perform .executeCycle last = .next (t, r) ∧ last.roundState ≠ .draw ∧
      t.roundState = .draw :=
  ⟨⟨rfl, by decide, _, rfl, by decide⟩, ⟨rfl, by decide, _, rfl, by decide⟩,
    _, _, rfl, by decide, by decide⟩

/-- No-op in a terminal state and at the limit; no player loaded; a limit of one cycle. -/
theorem witness_CyclesWithoutAStep :
    ({ tiny [] 0 2 9 with roundState := .p1Won } : State).roundState ≠ .ongoing ∧
    (tiny [] 0 2 0).cfg.maxCycles ≤ (tiny [] 0 2 0).currentCycle ∧
    (State.reset.roundState = .ongoing ∧ State.reset.currentCycle < State.reset.cfg.maxCycles ∧
      State.reset.loaded.p1 = false ∧ State.reset.loaded.p2 = false) ∧
    ((tiny [(0, stay), (2, stay)] 0 2 1).cfg.maxCycles = 1 ∧
      (tiny [(0, stay), (2, stay)] 0 2 1).currentCycle = 0 ∧
      ∃ t, executeCycle (tiny [(0, stay), (2, stay)] 0 2 1) = .next t) :=
  ⟨by decide, by decide, ⟨rfl, by decide, rfl, rfl⟩, rfl, rfl, _, rfl⟩
theorem witness_CycleCounterCountsCycles :
    (∃ t, executeCycle (tiny [(0, stay), (2, stay)] 0 2 2) = .next t) ∧
    ∃ t r, perform (.loadProgram [stay] 3 .p1) State.reset = .next (t, r) :=
  ⟨⟨_, rfl⟩, _, _, rfl⟩
theorem witness_UnloadedPlayerHasNoTurn :
    (second [(2, stay)]).loaded.get .p1 = false ∧
    ∃ t, executeCycle (second [(2, stay)]) = .next t := ⟨rfl, _, rfl⟩

/-! ### Witnesses: host commands -/

theorem witness_ResetLeavesTheStatedValues :
    State.resetWith Config.chosen = State.reset ∧
    (small [(7, stay)] 7).cfg = (small [] 0).cfg := ⟨rfl, rfl⟩
theorem witness_OnlyResetFreesASlotOrLeavesATerminalState :
    let s : State := { small [] 0 with roundState := .draw }
    s.roundState ≠ .ongoing ∧ s.loaded.get .p1 = true ∧
    ∃ t r, perform (.loadProgram [stay] 3 .p2) s = .next (t, r) :=
  ⟨by decide, rfl, _, _, rfl⟩
theorem witness_ClearReportsAndObserversLeaveTheRest :
    7999 < (small [] 0).cfg.coreSize ∧ ∃ t r, perform .executeCycle (small [] 0) = .next (t, r) :=
  ⟨by decide, _, _, rfl⟩

/-- 1.6 with a core of 4 cells: too long by one, exactly full, slot taken. -/
theorem witness_LoadProgramCopiesAndSeeds :
    let s := State.resetWith ⟨4, 9, 64, .intermediate, by decide, by decide⟩
    s.cfg.coreSize < (List.replicate 5 stay).length ∧
    ((List.replicate 4 stay).length ≤ (tiny [] 0 2 9).cfg.coreSize ∧
      (tiny [] 0 2 9).loaded.get .p1 = true) ∧
    ((List.replicate 4 stay).length ≤ s.cfg.coreSize ∧ s.loaded.get .p1 = false ∧
      (List.replicate 4 stay)[3]? = some stay ∧ s.Inv) ∧
    ([stay].length ≤ s.cfg.coreSize ∧ ∀ j : Nat, j < [stay].length → 1 ≠ plus s 0 j) := by decide
theorem witness_LoadErrorsLeaveTheStateUnchanged :
    (tiny [] 0 2 9).cfg.coreSize < (List.replicate 5 stay).length ∧
    (tiny [] 0 2 9).loaded.get .p2 = true ∧ [stay].length ≤ (tiny [] 0 2 9).cfg.coreSize ∧
    ∃ t e, perform (.loadProgram [stay] 0 .p2) (tiny [] 0 2 9) = .next (t, .loadError e) :=
  ⟨by decide, rfl, by decide, _, _, rfl⟩
theorem witness_ConstructionSucceedsForEveryLegalSize :
    (0 < 1 ∧ 1 ≤ 2 ^ 32) ∧ (0 < 4294967296 ∧ 4294967296 ≤ 2 ^ 32) := by decide

/-! ### Witnesses: the invariant -/

theorem witness_StepKeepsTheInvariant :
    (tiny [(0, addNext), (2, stay)] 0 2 9).Inv ∧
    ∃ t, step (tiny [(0, addNext), (2, stay)] 0 2 9) = .next t := ⟨by decide, _, rfl⟩
/-- A state reached by a load from reset, with a listed cell, a loaded player and one process. -/
theorem witness_ReachableStatesMeetTheListedInvariants :
    ∃ s : State, s.Reachable ∧ s.loaded.p1 = true ∧ s.queue.p1 = [3] ∧ s.readCell 3 = stay :=
  ⟨_, .step _ _ (.issue _ [.loadProgram [stay] 3 .p1] (.start Config.chosen)) rfl,
    by decide, by decide, by decide⟩
theorem witness_NoStepFaultsUnderTheInvariant :
    (tiny [(0, addNext), (2, stay)] 0 2 9).Inv ∧
    ({ tiny [] 0 2 9 with pending := [.observe (.peek 3)] } : State).AsksInCore :=
  ⟨by decide, show 3 < 4 by decide⟩
theorem witness_EveryRoundEnds :
    (tiny [(0, stay), (2, stay)] 0 2 1).Inv ∧ (tiny [(0, stay), (2, stay)] 0 2 1).pending = [] ∧
    1 ≤ (tiny [(0, stay), (2, stay)] 0 2 1).cfg.maxCycles := by decide
theorem witness_ReportsInfluenceNothing :
    let s := tiny [(0, addNext), (2, stay)] 0 2 9
    let t : State := { s with report := ⟨{ Report.empty with valid := true }, Report.empty⟩ }
    s ≠ t ∧ EqualButReports s t ∧ ∃ s', step s = .next s' := ⟨by decide, rfl, _, rfl⟩

/-! ### Witnesses: the assembler -/

theorem witness_DefaultModifierTable :
    decodeLine 8000 [] 0 ["mov".toList, ".".toList, "x".toList, "1".toList, ",".toList,
      "2".toList] = .ok (.mov (f12 .x)) ∧
    parseModifier [".".toList, "x".toList, "1".toList, ",".toList, "2".toList] =
      .ok (some .x, ["1".toList, ",".toList, "2".toList]) ∧
    decodeLine 8000 [] 0 ["mov".toList, "1".toList, ",".toList, "2".toList] =
      .ok (.mov (f12 .i)) ∧
    parseModifier ["1".toList, ",".toList, "2".toList] =
      .ok (none, ["1".toList, ",".toList, "2".toList]) := by decide
theorem witness_LabelOperandsReachTheirInstruction :
    0 < 8000 ∧ isIdentifier "loop".toList = true ∧ AddrMode.dir ≠ .imm ∧
    lookupLabel [("loop".toList, 0)] "loop".toList = some 0 ∧
    operandValue 8000 [("loop".toList, 0)] 1 .dir "loop".toList = .ok 7999 := by decide
theorem witness_CanonicalSpellingReassembles :
    (Instr.jmp ⟨.b, .bin, .imm, 7999, 0⟩).fitsCore 8000 ∧
    spell (.jmp ⟨.b, .bin, .imm, 7999, 0⟩) = "JMP.B @7999, #0".toList := by decide
theorem witness_AssemblyIsAllOrNothing :
    0 < 8000 ∧ assembleLines 8000 ["a: jmp a".toList] = .ok [.jmp ⟨.b, .dir, .imm, 0, 0⟩] ∧
    (firstPass ["a: jmp a".toList]).lines[0]? = some (1, ["jmp".toList, "a".toList]) ∧
    assembleLines 8000 ["jmp b".toList] = .failed [(1, .unknownLabel)] := by decide
theorem witness_WriterNeedsASuccessfulAssembly :
    ∀ i ∈ [stay, .nop ⟨.f, .imm, .imm, 4294967295, 4294967295⟩], i.encodable := by decide

end Sys2Proof.Tests
end

/-! SUPPORT. Proofs of the statements on modular arithmetic and field writes (`00_scope.md` R11, R12). -/

namespace Sys2Proof.Machine

open Sys2Proof.Spec

/-! ### Modular arithmetic (R11) -/

theorem natCast_fmod (x : Int) {size : Nat} (h : 0 < size) :
    (fmod x size : Int) = x % (size : Int) :=
  Int.toNat_of_nonneg (Int.emod_nonneg x (by omega))

theorem dvd_sub_fmod (x : Int) {size : Nat} (h : 0 < size) :
    (size : Int) ∣ x - fmod x size := by
  rw [natCast_fmod x h]
  exact Int.dvd_self_sub_emod

/-- Integers with the same remainder class have the same `fmod`. -/
theorem fmod_eq_fmod_of_dvd_sub {x y : Int} {size : Nat} (h : (size : Int) ∣ x - y) :
    fmod x size = fmod y size :=
  congrArg Int.toNat (Int.emod_eq_emod_iff_emod_sub_eq_zero.2 (Int.emod_eq_zero_of_dvd h))

theorem eq_fmod_of_lt_of_dvd_sub {x : Int} {size r : Nat} (hr : r < size)
    (hdvd : (size : Int) ∣ x - r) : r = fmod x size :=
  calc r = fmod r size := (fmod_of_lt hr).symm
    _ = fmod x size := (fmod_eq_fmod_of_dvd_sub hdvd).symm

/-- The source's formula: one truncating remainder lies above `-size`, so that adding `size` makes it
non-negative, where truncating and floor remainder agree. -/
theorem tmod_tmod_add_eq_fmod (x : Int) {size : Nat} (h : 0 < size) :
    Int.tmod (Int.tmod x size + size) size = fmod x size := by
  have hlow : -(size : Int) < Int.tmod x size := Int.lt_tmod_of_pos x (by omega)
  have hclass : (size : Int) ∣ Int.tmod x size + size - x := by
    have hadd := (Int.dvd_tmod_sub_self (x := x) (m := size)).add (dvd_refl (size : Int))
    rwa [sub_add_eq_add_sub] at hadd
  calc Int.tmod (Int.tmod x size + size) size
      = (Int.tmod x size + size) % (size : Int) := Int.tmod_eq_emod_of_nonneg (by omega)
    _ = (fmod (Int.tmod x size + size) size : Int) := (natCast_fmod _ h).symm
    _ = fmod x size := by rw [fmod_eq_fmod_of_dvd_sub hclass]

/-- Settles O7: range and divisibility, uniqueness and the truncating formula are the lemmas above;
`(+)` is defined as the `fmod` of the sum. -/
theorem fmodIsFloorModulo : Obligations.FmodIsFloorModulo := by
  intro x size h
  refine ⟨⟨fmod_lt x h, dvd_sub_fmod x h⟩, ?unique, tmod_tmod_add_eq_fmod x h, ?cursor⟩
  case unique => exact fun _ hr hdvd => eq_fmod_of_lt_of_dvd_sub hr hdvd
  case cursor => exact fun _ _ => rfl

/-! ### Field writes (R12) -/

theorem setField_aVal_eq_withValues (i : Instr) (v : Nat) :
    setField i .aVal v = withValues i v (bv i) := rfl

theorem setField_bVal_eq_withValues (i : Instr) (v : Nat) :
    setField i .bVal v = withValues i (av i) v := rfl

/-- A field write changes the cell at `a` by `setField` and no other cell. -/
theorem onlyCell_writeField (s : State) (a : Nat) (d : Field) (v : Nat) :
    OnlyCell s (s.writeField a d v) a (setField (s.readCell a) d v) := by
  constructor
  · rw [State.readCell_writeField, if_pos rfl]
  · intro b hb
    rw [State.readCell_writeField, if_neg hb]

/-- Settles O8: what a field write does to the cells, with each field's `setField` spelled out. -/
theorem fieldWriteReplacesOneField : Obligations.FieldWriteReplacesOneField := by
  intro s a v
  constructor
  · rw [← setField_aVal_eq_withValues]
    exact onlyCell_writeField s a .aVal v
  · rw [← setField_bVal_eq_withValues]
    exact onlyCell_writeField s a .bVal v

end Sys2Proof.Machine

/-! SUPPORT. Proofs of the statements of `10_state.md`: the invariant (R35, R26), which construction
and reset establish and every command keeps; the cycle counter (R29); reset (R36); step reports
(R33). -/

namespace Sys2Proof.Machine

open Sys2Proof.Spec

/-! ### Every instruction's meaning by name -/

/-- What each opcode does once the operands are read and the process is popped (R140). -/
def effectOf : Instr → Operands → State → Effect
  | .kil _, _, s => killProcess none s
  | .frk _, o, s => forkEffect o s
  | .nop _, o, s => continueAt none (s.after o.p 1) s
  | .mov f, o, s => moveEffect f.mod o s
  | .add f, o, s => dataEffect addOp f.mod o s
  | .sub f, o, s => dataEffect subOp f.mod o s
  | .mul f, o, s => dataEffect mulOp f.mod o s
  | .div f, o, s => dataEffect divOp f.mod o s
  | .mod f, o, s => dataEffect modOp f.mod o s
  | .jmp _, o, s => continueAt none o.ps s
  | .jmz f, o, s => branchEffect (allZero f.mod o.dst) o.ps o s
  | .jmn f, o, s => branchEffect (allNonZero f.mod o.dst) o.ps o s
  | .beq f, o, s => branchEffect (equalOperands f.mod o.src o.dst) (s.after o.p 2) o s
  | .bne f, o, s => branchEffect (!equalOperands f.mod o.src o.dst) (s.after o.p 2) o s
  | .blt f, o, s => branchEffect (allGreater f.mod o.src o.dst) (s.after o.p 2) o s

/-- `exec` is the common process step with `effectOf`. -/
theorem exec_eq_processStep (i : Instr) (s : State) :
    exec i s = processStep i (effectOf i) s := by
  cases i <;> rfl

/-- An instruction answers a next state at a front process, and that state is its effect on the
popped state with the report set. -/
theorem exec_eq_next {i : Instr} {s t : State} :
    exec i s = .next t ↔
      ∃ p q, s.Front s.turn p q ∧ t = finishStep i (operandsOf i.fields p s) s.turn
        (effectOf i (operandsOf i.fields p s) (s.popped q)) := by
  rw [exec_eq_processStep]
  constructor
  · exact processStep_next
  · rintro ⟨p, q, hf, rfl⟩
    exact processStep_front hf

/-! ### The core stays in range (R35 (a)) -/

/-- Every cell of a core in range, listed or not, holds values in range. -/
theorem State.CoreOk.readCell_fits {s : State} (h : s.CoreOk) (a : Nat) :
    (s.readCell a).fitsCore s.cfg.coreSize :=
  coreRead_of_forall (P := fun i => i.fitsCore s.cfg.coreSize)
    ⟨s.cfg.coreSize_pos, s.cfg.coreSize_pos⟩ (fun c hc => (h.2 c hc).2) a

theorem State.CoreOk.writeCell {s : State} {a : Nat} {i : Instr} (h : s.CoreOk)
    (ha : a < s.cfg.coreSize) (hi : i.fitsCore s.cfg.coreSize) : (s.writeCell a i).CoreOk := by
  refine ⟨State.writeCell_wf h.1 a i, fun c hc => ?_⟩
  rcases mem_coreWrite hc with rfl | hc
  · exact ⟨ha, hi⟩
  · exact h.2 c hc

theorem setField_fitsCore {size v : Nat} {i : Instr} (hi : i.fitsCore size) (hv : v < size)
    (d : Field) : (setField i d v).fitsCore size := by
  cases d with
  | aVal => exact ⟨by simpa using hv, by simpa using hi.2⟩
  | bVal => exact ⟨by simpa using hi.1, by simpa using hv⟩

theorem State.CoreOk.writeField {s : State} {a v : Nat} {d : Field} (h : s.CoreOk)
    (ha : a < s.cfg.coreSize) (hv : v < s.cfg.coreSize) : (s.writeField a d v).CoreOk :=
  h.writeCell ha (setField_fitsCore (h.readCell_fits a) hv d)

/-- The pair writes keep the core in range if every value written is. -/
theorem State.CoreOk.writePairs {g : FieldOp} {size : Nat} {o : Operands}
    {l : List (Field × Field)} {s : State} (h : s.CoreOk) (hpd : o.pd < s.cfg.coreSize)
    (hv : ∀ q v, pairValue g size o q = some v → v < s.cfg.coreSize) :
    (writePairs g size o l s).CoreOk := by
  induction l generalizing s with
  | nil => exact h
  | cons q l ih =>
    unfold Machine.writePairs
    split
    · rename_i v hq
      exact ih (h.writeField hpd (hv q v hq)) hpd hv
    · exact ih h hpd hv

theorem State.CoreOk.copyProgram {s : State} (h : s.CoreOk) (o j : Nat) (is : List Instr) :
    (copyProgram o j is s).CoreOk := by
  induction is generalizing j s with
  | nil => exact h
  | cons i is ih =>
    have hfits := (Laws.RecordShape.normalize_fits i s.cfg.coreSize s.cfg.coreSize_pos).2
    exact ih (h.writeCell (s.after_lt o j) hfits) (j + 1)

/-! ### The operations of the data instructions stay in range -/

/-- The operation computes a value in `[0, S)` from values in `[0, S)`. -/
def StaysInRange (g : FieldOp) : Prop :=
  ∀ size dst src v, dst < size → src < size → g size dst src = some v → v < size

theorem moveOp_staysInRange : StaysInRange moveOp := by
  rintro size dst src v hd hs ⟨⟩
  exact hs

theorem addOp_staysInRange : StaysInRange addOp := by
  rintro size dst src v hd hs ⟨⟩
  exact fmod_lt _ (by omega)

theorem subOp_staysInRange : StaysInRange subOp := by
  rintro size dst src v hd hs ⟨⟩
  exact fmod_lt _ (by omega)

theorem mulOp_staysInRange : StaysInRange mulOp := by
  rintro size dst src v hd hs ⟨⟩
  exact fmod_lt _ (by omega)

theorem divOp_staysInRange : StaysInRange divOp := by
  intro size dst src v hd hs h
  obtain ⟨-, rfl⟩ : src ≠ 0 ∧ dst / src = v := by simpa [divOp] using h
  exact (Nat.div_le_self dst src).trans_lt hd

theorem modOp_staysInRange : StaysInRange modOp := by
  intro size dst src v hd hs h
  obtain ⟨-, rfl⟩ : src ≠ 0 ∧ dst - src * (dst / src) = v := by simpa [modOp] using h
  exact (Nat.sub_le dst _).trans_lt hd

/-! ### The operands of a step -/

/-- The operand addresses lie in the core and the copies are what stands there (R137). -/
structure Operands.InCore (o : Operands) (s : State) : Prop where
  ps_lt : o.ps < s.cfg.coreSize
  pd_lt : o.pd < s.cfg.coreSize
  src_eq : o.src = s.readCell o.ps
  dst_eq : o.dst = s.readCell o.pd

theorem indirect_lt (cfg : Config) (p t disp : Nat) : indirect cfg p t disp < cfg.coreSize := by
  unfold indirect
  split <;> exact wrap_lt _ _ cfg.coreSize_pos

theorem resolve_lt (cfg : Config) (core : List Cell) {p : Nat} (hp : p < cfg.coreSize)
    (mode : AddrMode) (v : Nat) : (resolve cfg core p mode v).1 < cfg.coreSize := by
  cases mode with
  | imm => exact hp
  | dir => exact wrap_lt p v cfg.coreSize_pos
  | ain | bin => exact indirect_lt _ _ _ _

theorem operandsOf_inCore (f : Fields) {p : Nat} {s : State} (hp : p < s.cfg.coreSize) :
    (operandsOf f p s).InCore s where
  ps_lt := resolve_lt _ _ hp _ _
  pd_lt := resolve_lt _ _ hp _ _
  src_eq := rfl
  dst_eq := rfl

theorem Operands.InCore.popped {o : Operands} {s : State} (h : o.InCore s) (q : List Nat) :
    o.InCore (s.popped q) :=
  ⟨h.ps_lt, h.pd_lt, h.src_eq, h.dst_eq⟩

theorem readField_lt {size : Nat} {i : Instr} (hi : i.fitsCore size) (d : Field) :
    readField i d < size := by
  cases d with
  | aVal => exact hi.1
  | bVal => exact hi.2

theorem Operands.InCore.pairValue_lt {o : Operands} {s : State} (ho : o.InCore s) (h : s.CoreOk)
    {g : FieldOp} (hg : StaysInRange g) (q : Field × Field) (v : Nat)
    (hv : pairValue g s.cfg.coreSize o q = some v) : v < s.cfg.coreSize := by
  have hsrc : o.src.fitsCore s.cfg.coreSize := ho.src_eq ▸ h.readCell_fits o.ps
  have hdst : o.dst.fitsCore s.cfg.coreSize := ho.dst_eq ▸ h.readCell_fits o.pd
  exact hg _ _ _ v (readField_lt hdst q.2) (readField_lt hsrc q.1) hv

/-! ### What an instruction may do to the state -/

/-- From state `s`, with `q` the queue behind the stepped process, the pushes `l` and the core `m`
keep the invariant: addresses in the core, no more processes than the continuation or the cap
allows, the core in range. -/
structure State.Allows (s : State) (q l : List Nat) (m : List Cell) : Prop where
  target_lt : ∀ a ∈ l, a < s.cfg.coreSize
  count_le : q.length + l.length ≤ max (q.length + 1) s.cfg.maxProcesses
  coreOk : s.CoreOk → ({ s with core := m } : State).CoreOk

/-- What is allowed does not depend on the queues of the state. -/
theorem State.Allows.of_popped {s : State} {q' q l : List Nat} {m : List Cell}
    (h : (s.popped q').Allows q l m) : s.Allows q l m :=
  ⟨h.target_lt, h.count_le, h.coreOk⟩

/-- The state with the core `m` and `l` pushed to the queue of the player on turn. -/
def State.written (s : State) (m : List Cell) (l : List Nat) : State :=
  { s with core := m, queue := s.queue.set s.turn (s.queue.get s.turn ++ l) }

/-- The effect writes the core and pushes processes as the invariant allows, and nothing else. -/
def Effect.Lawful (s : State) (e : Effect) : Prop :=
  ∃ m l, e.state = s.written m l ∧ s.Allows (s.queue.get s.turn) l m

theorem PerPlayer.set_get {α : Type} (v : PerPlayer α) (k : Player) : v.set k (v.get k) = v := by
  cases k <;> rfl

theorem killProcess_lawful {s : State} {m : List Cell} (w : Option Nat)
    (hm : s.CoreOk → ({ s with core := m } : State).CoreOk) :
    (killProcess w { s with core := m }).Lawful s := by
  refine ⟨m, [], ?_, by simp, by simp, hm⟩
  simp [State.written, PerPlayer.set_get]

theorem continueAt_lawful {s : State} {m : List Cell} (w : Option Nat) {a : Nat}
    (ha : a < s.cfg.coreSize) (hm : s.CoreOk → ({ s with core := m } : State).CoreOk) :
    (continueAt w a { s with core := m }).Lawful s :=
  ⟨m, [a], rfl, by simpa using ha, by simp, hm⟩

theorem branchEffect_lawful {o : Operands} {s : State} (taken : Bool) {target : Nat}
    (ht : target < s.cfg.coreSize) : (branchEffect taken target o s).Lawful s := by
  refine continueAt_lawful none ?_ id
  split
  · exact ht
  · exact s.after_lt o.p 1

theorem forkEffect_lawful {o : Operands} {s : State} (hps : o.ps < s.cfg.coreSize) :
    (forkEffect o s).Lawful s := by
  have hnext := s.after_lt o.p 1
  rw [forkEffect_eq]
  dsimp only
  split
  · rename_i hcap
    refine ⟨s.core, [wrap s.cfg.coreSize o.p 1, o.ps], ?_, by simp [hnext, hps], ?_, id⟩
    · simp [State.written, State.pushBack]
    · simp only [List.length_cons, List.length_nil]
      omega
  · exact ⟨s.core, [wrap s.cfg.coreSize o.p 1], rfl, by simpa using hnext, by simp, id⟩

theorem dataEffect_lawful {g : FieldOp} (hg : StaysInRange g) (m : Modifier) {o : Operands}
    {s : State} (ho : o.InCore s) : (dataEffect g m o s).Lawful s := by
  have hcore (h : s.CoreOk) :
      ({ s with core := (writePairs g s.cfg.coreSize o (pairs m) s).core } : State).CoreOk := by
    rw [← writePairs_eq]
    exact h.writePairs ho.pd_lt (ho.pairValue_lt h hg)
  rw [dataEffect_eq]
  dsimp only
  split
  · exact killProcess_lawful _ hcore
  · exact continueAt_lawful _ (s.after_lt o.p 1) hcore

theorem moveEffect_lawful (m : Modifier) {o : Operands} {s : State} (ho : o.InCore s) :
    (moveEffect m o s).Lawful s := by
  have hdata (m : Modifier) : (dataEffect moveOp m o s).Lawful s :=
    dataEffect_lawful moveOp_staysInRange m ho
  cases m with
  | i =>
    exact continueAt_lawful _ (s.after_lt o.p 1)
      fun h => h.writeCell ho.pd_lt (ho.src_eq ▸ h.readCell_fits o.ps)
  | a | b | ab | ba | f | x => exact hdata _

/-- Every instruction writes and pushes only what the invariant allows. -/
theorem effectOf_lawful (i : Instr) {o : Operands} {s : State} (ho : o.InCore s) :
    (effectOf i o s).Lawful s := by
  cases i with
  | kil f => exact killProcess_lawful none id
  | frk f => exact forkEffect_lawful ho.ps_lt
  | nop f => exact continueAt_lawful none (s.after_lt o.p 1) id
  | mov f => exact moveEffect_lawful f.mod ho
  | add f => exact dataEffect_lawful addOp_staysInRange f.mod ho
  | sub f => exact dataEffect_lawful subOp_staysInRange f.mod ho
  | mul f => exact dataEffect_lawful mulOp_staysInRange f.mod ho
  | div f => exact dataEffect_lawful divOp_staysInRange f.mod ho
  | mod f => exact dataEffect_lawful modOp_staysInRange f.mod ho
  | jmp f => exact continueAt_lawful none ho.ps_lt id
  | jmz f | jmn f => exact branchEffect_lawful _ ho.ps_lt
  | beq f | bne f | blt f => exact branchEffect_lawful _ (s.after_lt o.p 2)

/-! ### What a player's step and turn leave -/

/-- The state with a new core, and with player `k`'s queue and report replaced. -/
def State.stepped (s : State) (k : Player) (m : List Cell) (q : List Nat) (r : Report) : State :=
  { s with core := m, queue := s.queue.set k q, report := s.report.set k r }

section
variable (s : State) (k : Player) (m : List Cell) (q : List Nat) (r : Report)

@[simp] theorem State.stepped_cfg : (s.stepped k m q r).cfg = s.cfg := rfl
@[simp] theorem State.stepped_core : (s.stepped k m q r).core = m := rfl
@[simp] theorem State.stepped_queue : (s.stepped k m q r).queue = s.queue.set k q := rfl
@[simp] theorem State.stepped_loaded : (s.stepped k m q r).loaded = s.loaded := rfl
@[simp] theorem State.stepped_currentCycle :
    (s.stepped k m q r).currentCycle = s.currentCycle := rfl
@[simp] theorem State.stepped_roundState : (s.stepped k m q r).roundState = s.roundState := rfl

@[simp] theorem turnEnd_cfg : (turnEnd k s).cfg = s.cfg := by unfold turnEnd; split <;> rfl
@[simp] theorem turnEnd_core : (turnEnd k s).core = s.core := by unfold turnEnd; split <;> rfl
@[simp] theorem turnEnd_queue : (turnEnd k s).queue = s.queue := by unfold turnEnd; split <;> rfl
@[simp] theorem turnEnd_loaded : (turnEnd k s).loaded = s.loaded := by
  unfold turnEnd; split <;> rfl
@[simp] theorem turnEnd_currentCycle : (turnEnd k s).currentCycle = s.currentCycle := by
  unfold turnEnd; split <;> rfl

/-- A turn ends the round exactly when it leaves its player without a process. -/
theorem turnEnd_roundState : (turnEnd k s).roundState =
    if s.queue.get k = [] then .wonBy k.other else s.roundState := by
  unfold turnEnd; split <;> rfl

@[simp] theorem cycleEnd_cfg : (cycleEnd s).cfg = s.cfg := by unfold cycleEnd; split <;> rfl
@[simp] theorem cycleEnd_currentCycle : (cycleEnd s).currentCycle = s.currentCycle := by
  unfold cycleEnd; split <;> rfl
end

/-- The end of a process step, where the effect wrote `m` and pushed `l`. -/
theorem finishStep_written {i : Instr} {o : Operands} {s : State} {q l : List Nat} {m : List Cell}
    {e : Effect} (h : e.state = (s.popped q).written m l) :
    finishStep i o s.turn e = s.stepped s.turn m (q ++ l) (stepReport i o s.turn e) := by
  simp only [finishStep, h, State.written, State.popped, State.setReport, State.stepped,
    PerPlayer.get_set_same, PerPlayer.set_set]

/-- An instruction pops the front process, writes and pushes what the invariant allows, sets the
report of the player on turn, and changes nothing else. -/
theorem exec_next_stepped {i : Instr} {s t : State} (h : exec i s = .next t) :
    ∃ p q l m r, s.Front s.turn p q ∧ s.Allows q l m ∧ t = s.stepped s.turn m (q ++ l) r := by
  obtain ⟨p, q, hfront, rfl⟩ := exec_eq_next.1 h
  have hoperands : (operandsOf i.fields p s).InCore (s.popped q) :=
    (operandsOf_inCore i.fields hfront.2).popped q
  obtain ⟨m, l, hstate, hallows⟩ := effectOf_lawful i hoperands
  have hqueue : (s.popped q).queue.get (s.popped q).turn = q := PerPlayer.get_set_same _ _ _
  rw [hqueue] at hallows
  exact ⟨p, q, l, m, _, hfront, hallows.of_popped, finishStep_written hstate⟩

/-- A player's step does what an instruction does on its turn; `turn` is put back. -/
theorem stepProcess_next {k : Player} {s t : State} (h : stepProcess k s = .next t) :
    ∃ p q l m r, s.Front k p q ∧ s.Allows q l m ∧ t = s.stepped k m (q ++ l) r := by
  obtain ⟨_, _, u, _, hexec, rfl⟩ := stepProcess_eq_next.1 h
  obtain ⟨p, q, l, m, r, hfront, hallows, rfl⟩ := exec_next_stepped hexec
  exact ⟨p, q, l, m, r, hfront, ⟨hallows.target_lt, hallows.count_le, hallows.coreOk⟩, rfl⟩

/-- A player's turn leaves the parameters, the load flags and the cycle counter. -/
theorem playerTurn_frame {k : Player} {s t : State} (h : playerTurn k s = .next t) :
    t.cfg = s.cfg ∧ t.loaded = s.loaded ∧ t.currentCycle = s.currentCycle := by
  rcases playerTurn_eq_next.1 h with ⟨-, rfl⟩ | ⟨-, u, hstep, rfl⟩
  · exact ⟨rfl, rfl, rfl⟩
  · obtain ⟨p, q, l, m, r, -, -, rfl⟩ := stepProcess_next hstep
    simp

/-! ### A player's turn keeps the invariant -/

@[simp] theorem RoundState.wonBy_ne_ongoing (k : Player) : RoundState.wonBy k ≠ .ongoing := by
  cases k <;> decide

@[simp] theorem RoundState.wonBy_ne_draw (k : Player) : RoundState.wonBy k ≠ .draw := by
  cases k <;> decide

/-- A player that meets the invariant while the round goes on meets it however the round ends. -/
theorem State.PlayerOk.endRound {s : State} {k : Player} (h : s.PlayerOk k)
    (hround : s.roundState = .ongoing) {r : RoundState} (hr : r ≠ .ongoing) :
    ({ s with roundState := r } : State).PlayerOk k := by
  obtain ⟨haddr, hcap, hunloaded, halive, -⟩ := h
  refine ⟨haddr, hcap, hunloaded, fun _ h => absurd h hr, fun hnone hloaded => ?_⟩
  have hsome : 1 ≤ s.processCount k := halive hloaded hround
  have hzero : s.processCount k = 0 := hnone
  omega

/-- A turn of player `k` leaves its opponent as it was, but for the end of the round. -/
theorem turnEnd_stepped_other {s : State} {k : Player} {m : List Cell} {q : List Nat} {r : Report}
    (h : s.PlayerOk k.other) (hround : s.roundState = .ongoing) :
    (turnEnd k (s.stepped k m q r)).PlayerOk k.other := by
  have hstepped : (s.stepped k m q r).PlayerOk k.other := by
    simpa [State.PlayerOk, State.processCount] using h
  unfold turnEnd
  split
  · exact hstepped.endRound hround (RoundState.wonBy_ne_ongoing _)
  · exact hstepped

/-- A turn of player `k` leaves it within its bounds, and if without a process, beaten. -/
theorem turnEnd_stepped_self {s : State} {k : Player} {p : Nat} {q l : List Nat} {m : List Cell}
    {r : Report} (h : s.PlayerOk k) (hloaded : s.loaded.get k = true) (hfront : s.Front k p q)
    (hallows : s.Allows q l m) : (turnEnd k (s.stepped k m (q ++ l) r)).PlayerOk k := by
  obtain ⟨haddr, hcap, -⟩ := h
  have hcount : s.processCount k = q.length + 1 := by simp [State.processCount, hfront.1]
  have hqueue : (turnEnd k (s.stepped k m (q ++ l) r)).queue.get k = q ++ l := by simp
  have hround : (turnEnd k (s.stepped k m (q ++ l) r)).roundState =
      if q ++ l = [] then .wonBy k.other else s.roundState := by simp [turnEnd_roundState]
  simp only [State.PlayerOk, State.processCount, hqueue, hround, turnEnd_cfg, State.stepped_cfg,
    turnEnd_loaded, State.stepped_loaded, hloaded, List.length_eq_zero_iff]
  refine ⟨fun a ha => ?addr, ?cap, nofun, fun _ hgoes => ?alive, fun hnone _ => if_pos hnone⟩
  case addr =>
    rcases List.mem_append.1 ha with ha | ha
    · exact haddr a (by simp [hfront.1, ha])
    · exact hallows.target_lt a ha
  case cap =>
    have := hallows.count_le
    rw [List.length_append]
    omega
  case alive =>
    refine List.length_pos_iff.2 fun hnone => ?_
    rw [if_pos hnone] at hgoes
    exact RoundState.wonBy_ne_ongoing _ hgoes

/-- What the two turns of a cycle keep: the invariant but for the cycle counter. -/
def State.TurnInv (s : State) : Prop := s.CoreOk ∧ ∀ k, s.PlayerOk k

theorem State.inv_iff (s : State) : s.Inv ↔ s.TurnInv ∧ s.CyclesOk := by
  constructor
  · rintro ⟨hcore, hp1, hp2, hcycles⟩
    exact ⟨⟨hcore, fun | .p1 => hp1 | .p2 => hp2⟩, hcycles⟩
  · rintro ⟨⟨hcore, hplayers⟩, hcycles⟩
    exact ⟨hcore, hplayers .p1, hplayers .p2, hcycles⟩

/-- A player's turn keeps `TurnInv`, and the round goes on or its opponent has won. -/
theorem playerTurn_keeps {k : Player} {s t : State} (hround : s.roundState = .ongoing)
    (h : s.TurnInv) (hturn : playerTurn k s = .next t) :
    t.TurnInv ∧ (t.roundState = .ongoing ∨ t.roundState = .wonBy k.other) := by
  rcases playerTurn_eq_next.1 hturn with ⟨-, rfl⟩ | ⟨hloaded, u, hstep, rfl⟩
  · exact ⟨h, .inl hround⟩
  obtain ⟨hcore, hplayers⟩ := h
  obtain ⟨p, q, l, m, r, hfront, hallows, rfl⟩ := stepProcess_next hstep
  refine ⟨⟨?core, fun j => ?player⟩, ?round⟩
  case core => simpa [State.CoreOk] using hallows.coreOk hcore
  case player =>
    rcases Player.eq_or_other k j with rfl | rfl
    · exact turnEnd_stepped_self (hplayers j) hloaded hfront hallows
    · exact turnEnd_stepped_other (hplayers k.other) hround
  case round =>
    rw [turnEnd_roundState]
    split
    · exact .inr rfl
    · exact .inl hround

/-! ### A cycle keeps the invariant -/

theorem State.cyclesOk_of_wonBy {s : State} {k : Player} (hcount : s.currentCycle ≤ s.cfg.maxCycles)
    (hround : s.roundState = .wonBy k) : s.CyclesOk := by
  simp [State.CyclesOk, hcount, hround]

theorem cycleEnd_turnInv {s : State} (h : s.TurnInv) : (cycleEnd s).TurnInv := by
  unfold cycleEnd
  split
  · rename_i hlast
    exact ⟨h.1, fun k => (h.2 k).endRound hlast.1 (by decide)⟩
  · exact h

/-- The end of a cycle makes the last one a draw, so that a round going on has a cycle left. -/
theorem cycleEnd_cyclesOk {s : State} (hcount : s.currentCycle ≤ s.cfg.maxCycles)
    (hdraw : s.roundState ≠ .draw) : (cycleEnd s).CyclesOk := by
  unfold cycleEnd
  split
  · rename_i hlast
    exact ⟨hcount, fun _ => le_antisymm hcount hlast.2, nofun⟩
  · rename_i hlast
    refine ⟨hcount, fun h => absurd h hdraw, fun hgoes => .inr ?_⟩
    exact Nat.lt_of_not_le fun hle => hlast ⟨hgoes, hle⟩

/-- An `executeCycle` is a no-op, or the round goes on and has a cycle left (R220). -/
theorem State.noop_or_cycleLeft (s : State) :
    (s.roundState ≠ .ongoing ∨ s.cfg.maxCycles ≤ s.currentCycle) ∨
      (s.roundState = .ongoing ∧ s.currentCycle < s.cfg.maxCycles) := by
  by_cases hround : s.roundState = .ongoing
  · exact (le_or_gt s.cfg.maxCycles s.currentCycle).imp .inr fun hleft => ⟨hround, hleft⟩
  · exact .inl (.inl hround)

theorem executeCycle_inv {s t : State} (h : s.Inv) (hcycle : executeCycle s = .next t) :
    t.Inv := by
  rcases s.noop_or_cycleLeft with hnoop | ⟨hround, hleft⟩
  · rw [executeCycle_noop hnoop] at hcycle
    cases hcycle
    exact h
  rw [State.inv_iff] at h ⊢
  obtain ⟨u, hturn1, hrest⟩ := (executeCycle_eq_next hround hleft).1 hcycle
  obtain ⟨hinv1, hround1⟩ :=
    playerTurn_keeps (s := { s with currentCycle := s.currentCycle + 1 }) hround h.1 hturn1
  obtain ⟨hcfg1, -, hcount1⟩ := playerTurn_frame hturn1
  have hle1 : u.currentCycle ≤ u.cfg.maxCycles := by rw [hcfg1, hcount1]; exact hleft
  rcases hrest with ⟨hover, rfl⟩ | ⟨hgoes, v, hturn2, rfl⟩
  · exact ⟨hinv1, State.cyclesOk_of_wonBy hle1 (hround1.resolve_left hover)⟩
  · obtain ⟨hinv2, hround2⟩ := playerTurn_keeps hgoes hinv1 hturn2
    obtain ⟨hcfg2, -, hcount2⟩ := playerTurn_frame hturn2
    have hle2 : v.currentCycle ≤ v.cfg.maxCycles := by rwa [hcfg2, hcount2]
    have hdraw2 : v.roundState ≠ .draw := by
      rcases hround2 with h | h <;> simp [h]
    exact ⟨cycleEnd_turnInv hinv2, cycleEnd_cyclesOk hle2 hdraw2⟩

/-! ### What a command can do -/

/-- A load fails and leaves the state, or loads a player whose slot is free. -/
theorem loadOutcome_cases {is : List Instr} {offset : Int} {k : Player} {s t : State} {a : Response}
    (h : loadOutcome s (loadProgram is offset k s) = (t, a)) :
    t = s ∨ s.loaded.get k = false ∧ t = loadedState is offset k s := by
  obtain rfl : (loadOutcome s (loadProgram is offset k s)).1 = t := congrArg Prod.fst h
  rw [loadProgram_eq]
  split
  · exact .inl rfl
  split
  · exact .inl rfl
  · rename_i hfree
    exact .inr ⟨by simpa using hfree, rfl⟩

/-- `reset` and `executeCycle` apart, a command leaves the state, empties the reports or loads. -/
def HarmlessTo (s t : State) : Prop :=
  t = s ∨ t = clearReports s ∨
    ∃ is offset k, s.loaded.get k = false ∧ t = loadedState is offset k s

/-- Every command resets, runs a cycle, or leaves all but the reports and a free load slot. -/
theorem perform_cases {c : Command} {s t : State} {a : Response}
    (h : perform c s = .next (t, a)) :
    (c = .reset ∧ t = hostReset s) ∨ (c = .executeCycle ∧ executeCycle s = .next t) ∨
      (c ≠ .reset ∧ c ≠ .executeCycle ∧ HarmlessTo s t) := by
  cases c with
  | reset => cases h; exact .inl ⟨rfl, rfl⟩
  | executeCycle =>
    obtain ⟨u, hcycle, hu⟩ := andThen_eq_next.1 h
    cases hu
    exact .inr (.inl ⟨rfl, hcycle⟩)
  | loadProgram is offset k =>
    refine .inr (.inr ⟨nofun, nofun, ?_⟩)
    exact (loadOutcome_cases (Host.Outcome.next.inj h)).imp id fun hload =>
      .inr ⟨is, offset, k, hload⟩
  | loadBinary bytes offset k =>
    refine .inr (.inr ⟨nofun, nofun, ?_⟩)
    exact (loadOutcome_cases (Host.Outcome.next.inj h)).imp id fun hload =>
      .inr ⟨decodeProgram bytes, offset, k, hload⟩
  | clearReports => cases h; exact .inr (.inr ⟨nofun, nofun, .inr (.inl rfl)⟩)
  | observe q =>
    obtain ⟨b, -, hb⟩ := andThen_eq_next.1 h
    cases hb
    exact .inr (.inr ⟨nofun, nofun, .inl rfl⟩)

/-! ### The other commands keep the invariant -/

/-- Construction and reset establish the invariant. -/
theorem resetWith_inv (cfg : Config) : (State.resetWith cfg).Inv := by
  rw [State.inv_iff]
  refine ⟨⟨⟨resetWith_wf cfg, fun c hc => absurd hc List.not_mem_nil⟩, fun k => ?player⟩, ?cycles⟩
  case player =>
    cases k <;> simp [State.PlayerOk, State.processCount, State.resetWith, PerPlayer.get]
  case cycles =>
    refine ⟨Nat.zero_le _, nofun, fun _ => ?_⟩
    exact Nat.eq_zero_or_pos cfg.maxCycles

/-- A load seeds one process for a player that had none, and leaves the other player. -/
theorem loadedState_inv (is : List Instr) (offset : Int) {k : Player} {s : State} (h : s.Inv)
    (hfree : s.loaded.get k = false) : (loadedState is offset k s).Inv := by
  rw [State.inv_iff] at h ⊢
  obtain ⟨⟨hcore, hplayers⟩, hcycles⟩ := h
  refine ⟨⟨?core, fun j => ?player⟩, hcycles⟩
  case core =>
    have hcopy := hcore.copyProgram (fmod offset s.cfg.coreSize) 0 is
    rwa [copyProgram_eq] at hcopy
  case player =>
    rcases Player.eq_or_other k j with rfl | rfl
    · have hempty : s.queue.get j = [] := by
        obtain ⟨-, -, hunloaded, -⟩ := hplayers j
        exact List.length_eq_zero_iff.1 (hunloaded hfree)
      have hstart := fmod_lt offset s.cfg.coreSize_pos
      simp [State.PlayerOk, State.processCount, loadedState, hempty, hstart]
    · simpa [State.PlayerOk, State.processCount, loadedState] using hplayers k.other

/-- Every command keeps the invariant. -/
theorem perform_inv {c : Command} {s t : State} {a : Response} (h : s.Inv)
    (hperform : perform c s = .next (t, a)) : t.Inv := by
  rcases perform_cases hperform with
    ⟨-, rfl⟩ | ⟨-, hcycle⟩ | ⟨-, -, rfl | rfl | ⟨is, offset, k, hfree, rfl⟩⟩
  · exact resetWith_inv s.cfg
  · exact executeCycle_inv h hcycle
  · exact h
  · exact h
  · exact loadedState_inv is offset h hfree

/-- Settles O49: a step also changes `pending` and `response`, of which the invariant does not
speak. -/
theorem stepKeepsTheInvariant : Obligations.StepKeepsTheInvariant := by
  intro s t h hstep
  obtain ⟨u, a, hperform, rfl⟩ := step_eq_next.1 hstep
  have hu : u.Inv := perform_inv (s := { s with pending := (nextCommand s).2 }) h hperform
  exact hu

/-- Settles O48: `State.reset` is the reset state of `Config.chosen`. -/
theorem invariantHoldsAtReset : Obligations.InvariantHoldsAtReset :=
  ⟨resetWith_inv, resetWith_inv Config.chosen⟩

/-! ### Reachable states (R35, R26) -/

theorem State.Reachable.inv {s : State} (h : s.Reachable) : s.Inv := by
  induction h with
  | start cfg => exact resetWith_inv cfg
  | issue s cs _ ih => exact ih
  | step s t _ hstep ih => exact stepKeepsTheInvariant s t ih hstep

/-- Settles O50: the clauses are those of the invariant, which every reachable state meets. -/
theorem reachableStatesMeetTheListedInvariants :
    Obligations.ReachableStatesMeetTheListedInvariants := by
  intro s hreach
  obtain ⟨⟨hcore, hplayers⟩, hcount, hdraw, -⟩ := s.inv_iff.1 hreach.inv
  refine ⟨hcore.readCell_fits, fun k => ?addr, fun k => ?unloaded, fun k => ?alive, ?lost1, ?lost2,
    hcount, hdraw, fun k => ?cap⟩
  case lost1 => obtain ⟨-, -, -, -, hlost⟩ := hplayers .p1; exact hlost
  case lost2 => obtain ⟨-, -, -, -, hlost⟩ := hplayers .p2; exact hlost
  all_goals obtain ⟨haddr, hcap, hunloaded, halive, -⟩ := hplayers k
  case addr => exact haddr
  case unloaded => exact hunloaded
  case alive => exact halive
  case cap => exact hcap

/-! ### The cycle counter (R29) -/

theorem executeCycle_currentCycle {s t : State} (hround : s.roundState = .ongoing)
    (hleft : s.currentCycle < s.cfg.maxCycles) (h : executeCycle s = .next t) :
    t.currentCycle = s.currentCycle + 1 := by
  obtain ⟨u, hturn1, hrest⟩ := (executeCycle_eq_next hround hleft).1 h
  obtain ⟨-, -, hcount1⟩ := playerTurn_frame hturn1
  rcases hrest with ⟨-, rfl⟩ | ⟨-, v, hturn2, rfl⟩
  · exact hcount1
  · obtain ⟨-, -, hcount2⟩ := playerTurn_frame hturn2
    rw [cycleEnd_currentCycle, hcount2, hcount1]

/-- Settles O40: the counter rises at the start of a cycle and no turn changes it; a load and
`clearReports` do not either. -/
theorem cycleCounterCountsCycles : Obligations.CycleCounterCountsCycles := by
  refine ⟨fun s t => executeCycle_currentCycle, fun c s t a hperform hreset hcycle => ?_⟩
  rcases perform_cases hperform with
    ⟨rfl, -⟩ | ⟨rfl, -⟩ | ⟨-, -, rfl | rfl | ⟨is, offset, k, -, rfl⟩⟩
  · exact absurd rfl hreset
  · exact absurd rfl hcycle
  all_goals rfl

/-! ### Reset (R36) -/

/-- Settles O42: the three states are `State.resetWith cfg` but for `pending` and `response`. -/
theorem resetLeavesTheStatedValues : Obligations.ResetLeavesTheStatedValues := by
  intro cfg s hs
  rcases hs with rfl | ⟨u, rfl, rfl⟩ | ⟨rfl, rfl⟩ <;>
    exact ⟨rfl, coreRead_nil, rfl, rfl, rfl, rfl, rfl, rfl, fun | .p1 | .p2 => rfl⟩

/-! ### Step reports (R33) -/

/-- The state with other step reports and another last response. -/
def State.withReports (s : State) (r : PerPlayer Report) (x : Option Response) : State :=
  { s with report := r, response := x }

theorem equalButReports_iff {s t : State} :
    EqualButReports s t ↔ ∃ r x, t = s.withReports r x := by
  constructor
  · exact fun h => ⟨t.report, t.response, h.symm⟩
  · rintro ⟨r, x, rfl⟩
    rfl

section
variable (g : FieldOp) (o : Operands) (k : Player) (s : State) (r : PerPlayer Report)
  (x : Option Response)

@[simp] theorem State.withReports_cfg : (s.withReports r x).cfg = s.cfg := rfl
@[simp] theorem State.withReports_loaded : (s.withReports r x).loaded = s.loaded := rfl

/-! No instruction reads a report. -/

theorem writePairs_withReports (size : Nat) (l : List (Field × Field)) :
    writePairs g size o l (s.withReports r x) = (writePairs g size o l s).withReports r x := by
  induction l generalizing s with
  | nil => rfl
  | cons q l ih =>
    unfold writePairs
    split
    · exact ih (s.writeField o.pd q.2 _)
    · exact ih s

theorem dataEffect_withReports (m : Modifier) :
    (dataEffect g m o (s.withReports r x)).state = (dataEffect g m o s).state.withReports r x := by
  simp only [dataEffect, writePairs_withReports, State.withReports_cfg]
  split <;> rfl

theorem forkEffect_withReports :
    (forkEffect o (s.withReports r x)).state = (forkEffect o s).state.withReports r x := by
  let t := s.pushBack s.turn (s.after o.p 1)
  simp only [forkEffect]
  rw [apply_ite Effect.state, apply_ite Effect.state]
  exact (apply_ite (State.withReports · r x) (t.processCount t.turn < t.cfg.maxProcesses)
    (t.pushBack t.turn o.ps) t).symm

theorem moveEffect_withReports (m : Modifier) :
    (moveEffect m o (s.withReports r x)).state = (moveEffect m o s).state.withReports r x := by
  cases m with
  | i => rfl
  | a | b | ab | ba | f | x => exact dataEffect_withReports moveOp o s r x _

theorem effectOf_withReports (i : Instr) :
    (effectOf i o (s.withReports r x)).state = (effectOf i o s).state.withReports r x := by
  cases i with
  | kil | nop | jmp | jmz | jmn | beq | bne | blt => rfl
  | frk f => exact forkEffect_withReports o s r x
  | mov f => exact moveEffect_withReports o s r x f.mod
  | add f | sub f | mul f | div f | mod f => exact dataEffect_withReports _ o s r x f.mod

/-- The step's own report replaces the one that stood there. -/
theorem finishStep_withReports {i : Instr} {e e' : Effect}
    (h : e'.state = e.state.withReports r x) :
    finishStep i o k e' =
      (finishStep i o k e).withReports (r.set k (stepReport i o k e')) x := by
  simp only [finishStep, h]
  rfl

/-! No test of the scheduler reads a report. -/

theorem turnEnd_withReports :
    turnEnd k (s.withReports r x) = (turnEnd k s).withReports r x :=
  (apply_ite (State.withReports · r x) (s.queue.get k = [])
    { s with roundState := .wonBy k.other } s).symm

theorem cycleEnd_withReports : cycleEnd (s.withReports r x) = (cycleEnd s).withReports r x :=
  (apply_ite (State.withReports · r x)
    (s.roundState = .ongoing ∧ s.cfg.maxCycles ≤ s.currentCycle)
    { s with roundState := .draw } s).symm

/-! No load reads a report. -/

theorem copyProgram_withReports (a j : Nat) (is : List Instr) :
    copyProgram a j is (s.withReports r x) = (copyProgram a j is s).withReports r x := by
  induction is generalizing j s with
  | nil => rfl
  | cons i is ih => exact ih (s.writeCell (s.after a j) (normalize s.cfg.coreSize i)) (j + 1)

theorem loadedState_withReports (is : List Instr) (offset : Int) :
    loadedState is offset k (s.withReports r x) = (loadedState is offset k s).withReports r x := by
  simp only [loadedState, copyProgram_withReports]
  rfl

theorem loadOutcome_withReports (is : List Instr) (offset : Int) :
    loadOutcome (s.withReports r x) (loadProgram is offset k (s.withReports r x)) =
      ((loadOutcome s (loadProgram is offset k s)).1.withReports r x,
        (loadOutcome s (loadProgram is offset k s)).2) := by
  simp only [loadProgram_eq, loadedState_withReports, State.withReports_cfg,
    State.withReports_loaded]
  split
  · rfl
  · split <;> rfl
end

/-- Other reports and another response in, other reports and that response out, all else equal. -/
def BlindToReports (f : State → Host.Outcome State Fault Refusal) : Prop :=
  ∀ s t r x, f s = .next t → ∃ r', f (s.withReports r x) = .next (t.withReports r' x)

theorem exec_blindToReports (i : Instr) : BlindToReports (exec i) := by
  intro s t r x h
  obtain ⟨p, q, hfront, rfl⟩ := exec_eq_next.1 h
  have heffect := effectOf_withReports (operandsOf i.fields p s) (s.popped q) r x i
  exact ⟨_, exec_eq_next.2 ⟨p, q, hfront, (finishStep_withReports _ s.turn r x heffect).symm⟩⟩

theorem stepProcess_blindToReports (k : Player) : BlindToReports (stepProcess k) := by
  intro s t r x h
  obtain ⟨p, q, u, hfront, hexec, rfl⟩ := stepProcess_eq_next.1 h
  obtain ⟨r', hexec'⟩ := exec_blindToReports _ _ _ r x hexec
  exact ⟨r', stepProcess_eq_next.2 ⟨p, q, _, hfront, hexec', rfl⟩⟩

theorem playerTurn_blindToReports (k : Player) : BlindToReports (playerTurn k) := by
  intro s t r x h
  rcases playerTurn_eq_next.1 h with ⟨hidle, rfl⟩ | ⟨hloaded, u, hstep, rfl⟩
  · exact ⟨r, playerTurn_eq_next.2 (.inl ⟨hidle, rfl⟩)⟩
  · obtain ⟨r', hstep'⟩ := stepProcess_blindToReports k s u r x hstep
    exact ⟨r', playerTurn_eq_next.2
      (.inr ⟨hloaded, _, hstep', (turnEnd_withReports k u r' x).symm⟩)⟩

theorem executeCycle_blindToReports : BlindToReports executeCycle := by
  intro s t r x h
  rcases s.noop_or_cycleLeft with hnoop | ⟨hround, hleft⟩
  · rw [executeCycle_noop hnoop] at h
    cases h
    exact ⟨r, executeCycle_noop hnoop⟩
  have hcycle {t' : State} := executeCycle_eq_next (s := s.withReports r x) (t := t') hround hleft
  obtain ⟨u, hturn1, hrest⟩ := (executeCycle_eq_next hround hleft).1 h
  obtain ⟨r1, hturn1'⟩ := playerTurn_blindToReports .p1 _ u r x hturn1
  rcases hrest with ⟨hover, rfl⟩ | ⟨hgoes, v, hturn2, rfl⟩
  · exact ⟨r1, hcycle.2 ⟨_, hturn1', .inl ⟨hover, rfl⟩⟩⟩
  · obtain ⟨r2, hturn2'⟩ := playerTurn_blindToReports .p2 u v r1 x hturn2
    exact ⟨r2, hcycle.2 ⟨_, hturn1', .inr ⟨hgoes, _, hturn2', (cycleEnd_withReports v r2 x).symm⟩⟩⟩

/-- An observer may return a report, so that only its response depends on one. -/
theorem observe_withReports {q : Query} {s : State} {b : Response} (h : observe q s = .next b)
    (r : PerPlayer Report) (x : Option Response) :
    ∃ b', observe q (s.withReports r x) = .next b' := by
  cases q with
  | report k => exact ⟨_, rfl⟩
  | roundState | currentCycle | isLoaded | processCount | peek => exact ⟨b, h⟩

theorem perform_withReports {c : Command} {s t : State} {a : Response}
    (h : perform c s = .next (t, a)) (r : PerPlayer Report) (x : Option Response) :
    ∃ r' a', perform c (s.withReports r x) = .next (t.withReports r' x, a') := by
  cases c with
  | reset => cases h; exact ⟨⟨Report.empty, Report.empty⟩, _, rfl⟩
  | clearReports => cases h; exact ⟨⟨Report.empty, Report.empty⟩, _, rfl⟩
  | executeCycle =>
    obtain ⟨u, hcycle, hu⟩ := andThen_eq_next.1 h
    cases hu
    obtain ⟨r', hcycle'⟩ := executeCycle_blindToReports s t r x hcycle
    exact ⟨r', _, andThen_eq_next.2 ⟨_, hcycle', rfl⟩⟩
  | loadProgram is offset k =>
    obtain rfl : (loadOutcome s _).1 = t := congrArg Prod.fst (Host.Outcome.next.inj h)
    exact ⟨r, _, congrArg Host.Outcome.next (loadOutcome_withReports k s r x is offset)⟩
  | loadBinary bytes offset k =>
    obtain rfl : (loadOutcome s _).1 = t := congrArg Prod.fst (Host.Outcome.next.inj h)
    exact ⟨r, _, congrArg Host.Outcome.next
      (loadOutcome_withReports k s r x (decodeProgram bytes) offset)⟩
  | observe q =>
    obtain ⟨b, hobserve, hb⟩ := andThen_eq_next.1 h
    cases hb
    obtain ⟨b', hobserve'⟩ := observe_withReports hobserve r x
    exact ⟨r, b', andThen_eq_next.2 ⟨b', hobserve', rfl⟩⟩

/-- Settles O53: the pending commands are the same, so both states perform the same command. -/
theorem reportsInfluenceNothing : Obligations.ReportsInfluenceNothing := by
  intro s t s' heq hstep
  obtain ⟨r, x, rfl⟩ := equalButReports_iff.1 heq
  obtain ⟨u, a, hperform, rfl⟩ := step_eq_next.1 hstep
  obtain ⟨r', a', hperform'⟩ := perform_withReports hperform r x
  exact ⟨_, step_eq_next.2 ⟨_, a', hperform', rfl⟩, equalButReports_iff.2 ⟨r', some a', rfl⟩⟩

end Sys2Proof.Machine

/-! SUPPORT. Proofs of the statements of `20_memory.md`: the canonical form of the core (R61),
position independence (R67), and what an instruction may change of the core (R64). -/

namespace Sys2Proof.Machine

open Sys2Proof.Spec

/-! ### The canonical form of the core (R61, log 12) -/

/-- The order in which a canonical core lists its cells. -/
abbrev RisingAddress : Cell → Cell → Prop := InvImage (· < ·) Prod.fst

theorem coreWf_iff {m : List Cell} :
    CoreWf m ↔ m.Pairwise RisingAddress ∧ ∀ c ∈ m, c.2 ≠ Instr.dflt := by
  rw [CoreWf, List.pairwise_map]
  exact Iff.rfl

/-- The cells a canonical core lists are exactly those that do not read `DEFAULT`. -/
theorem CoreWf.mem_iff {m : List Cell} (h : CoreWf m) (a : Nat) (i : Instr) :
    (a, i) ∈ m ↔ coreRead m a = i ∧ i ≠ Instr.dflt := by
  rw [coreWf_iff] at h
  induction m with
  | nil => simp [eq_comm]
  | cons c m ih =>
    obtain ⟨b, j⟩ := c
    obtain ⟨hrising, hlisted⟩ := h
    obtain ⟨hfirst, hrest⟩ := List.pairwise_cons.1 hrising
    obtain ⟨hj, hm⟩ := List.forall_mem_cons.1 hlisted
    rw [List.mem_cons, Prod.mk.injEq, coreRead]
    split
    · next hba =>
      subst hba
      have habsent : (b, i) ∉ m := fun hmem => Nat.lt_irrefl b (hfirst _ hmem)
      constructor
      · rintro (⟨-, rfl⟩ | hmem)
        · exact ⟨rfl, hj⟩
        · exact absurd hmem habsent
      · rintro ⟨rfl, -⟩
        exact .inl ⟨rfl, rfl⟩
    · next hba =>
      rw [← ih ⟨hrest, hm⟩]
      exact or_iff_right fun h => hba h.1.symm

/-- Settles O9: both cores list exactly the cells that do not read `DEFAULT`, in the same order. -/
theorem canonicalCoresWithEqualCellsAreEqual :
    Obligations.CanonicalCoresWithEqualCellsAreEqual := by
  intro m n hm hn hread
  have hmem (c : Cell) : c ∈ m ↔ c ∈ n := by
    rw [hm.mem_iff, hn.mem_iff, hread]
  exact (coreWf_iff.1 hm).1.eq_of_mem_iff (coreWf_iff.1 hn).1 hmem

/-! ### Moving an address round the core -/

theorem wrap_wrap {size : Nat} (hsize : 0 < size) (a : Nat) (m n : Int) :
    wrap size (wrap size a m) n = wrap size a (m + n) := by
  refine fmod_eq_fmod_of_dvd_sub ?_
  have hdvd := (dvd_sub_fmod ((a : Int) + m) hsize).neg_right
  rwa [show -((a : Int) + m - fmod (a + m) size) = wrap size a m + n - (a + (m + n)) by
    unfold wrap; ring] at hdvd

/-- Two moves round the core commute. -/
theorem wrap_right_comm {size : Nat} (hsize : 0 < size) (a : Nat) (m n : Int) :
    wrap size (wrap size a m) n = wrap size (wrap size a n) m := by
  rw [wrap_wrap hsize, wrap_wrap hsize, add_comm]

/-- Moving back undoes a move, so that different cells stay different. -/
theorem wrap_inj {size a b : Nat} (ha : a < size) (hb : b < size) (n : Int) :
    wrap size a n = wrap size b n ↔ a = b := by
  have hback {c : Nat} (hc : c < size) : wrap size (wrap size c n) (-n) = c := by
    rw [wrap_wrap (by omega), add_neg_cancel, wrap, add_zero, fmod_of_lt hc]
  refine ⟨fun h => ?_, congrArg (wrap size · n)⟩
  rw [← hback ha, h, hback hb]

end Sys2Proof.Machine

namespace Sys2Proof.Spec

open Sys2Proof.Machine

/-! ### Operations that keep a rotation (R67) -/

section
variable {d : Nat} {s t : State}

theorem Rotated.cfg_eq (h : Rotated d s t) : t.cfg = s.cfg := by
  obtain ⟨hcfg, -⟩ := h
  exact hcfg

theorem Rotated.loaded_eq (h : Rotated d s t) : t.loaded = s.loaded := by
  obtain ⟨-, hloaded, -⟩ := h
  exact hloaded

theorem Rotated.turn_eq (h : Rotated d s t) : t.turn = s.turn := by
  obtain ⟨-, -, -, -, hturn, -⟩ := h
  exact hturn

theorem Rotated.round_eq (h : Rotated d s t) : t.roundState = s.roundState := by
  obtain ⟨-, -, -, hround, -⟩ := h
  exact hround

theorem Rotated.cycle_eq (h : Rotated d s t) : t.currentCycle = s.currentCycle := by
  obtain ⟨-, -, hcycle, -⟩ := h
  exact hcycle

theorem Rotated.readCell_eq (h : Rotated d s t) {a : Nat} (ha : a < s.cfg.coreSize) :
    t.readCell (plus s a d) = s.readCell a := by
  obtain ⟨-, -, -, -, -, hcells, -⟩ := h
  exact hcells a ha

theorem Rotated.queue_eq (h : Rotated d s t) (k : Player) :
    t.queue.get k = (s.queue.get k).map (plus s · d) := by
  obtain ⟨-, -, -, -, -, -, hqueue⟩ := h
  exact hqueue k

theorem Rotated.withTurn (h : Rotated d s t) (k : Player) :
    Rotated d { s with turn := k } { t with turn := k } := by
  obtain ⟨hcfg, hloaded, hcycle, hround, -, hcells, hqueue⟩ := h
  exact ⟨hcfg, hloaded, hcycle, hround, rfl, hcells, hqueue⟩

theorem Rotated.withRound (h : Rotated d s t) (r : RoundState) :
    Rotated d { s with roundState := r } { t with roundState := r } := by
  obtain ⟨hcfg, hloaded, hcycle, -, hturn, hcells, hqueue⟩ := h
  exact ⟨hcfg, hloaded, hcycle, rfl, hturn, hcells, hqueue⟩

theorem Rotated.nextCycle (h : Rotated d s t) :
    Rotated d { s with currentCycle := s.currentCycle + 1 }
      { t with currentCycle := t.currentCycle + 1 } := by
  obtain ⟨hcfg, hloaded, hcycle, hround, hturn, hcells, hqueue⟩ := h
  exact ⟨hcfg, hloaded, congrArg (· + 1) hcycle, hround, hturn, hcells, hqueue⟩

theorem Rotated.withQueue (h : Rotated d s t) (k : Player) (q : List Nat) :
    Rotated d { s with queue := s.queue.set k q }
      { t with queue := t.queue.set k (q.map (plus s · d)) } := by
  obtain ⟨hcfg, hloaded, hcycle, hround, hturn, hcells, hqueue⟩ := h
  refine ⟨hcfg, hloaded, hcycle, hround, hturn, hcells, fun j => ?_⟩
  rcases Player.eq_or_other k j with rfl | rfl
  · simp
  · simpa using hqueue k.other

/-- The report a step leaves is no part of a rotation. -/
theorem Rotated.finishStep {e e' : Effect} (h : Rotated d e.state e'.state) (i : Instr)
    (o o' : Operands) (k k' : Player) :
    Rotated d (finishStep i o k e) (finishStep i o' k' e') := h

theorem Rotated.writeCell (h : Rotated d s t) {a a' : Nat} (ha : a < s.cfg.coreSize)
    (ha' : a' = plus s a d) {i i' : Instr} (hi : i' = i) :
    Rotated d (s.writeCell a i) (t.writeCell a' i') := by
  subst ha' hi
  obtain ⟨hcfg, hloaded, hcycle, hround, hturn, hcells, hqueue⟩ := h
  refine ⟨hcfg, hloaded, hcycle, hround, hturn, fun b hb => ?_, hqueue⟩
  have hsame : plus s b d = plus s a d ↔ b = a := wrap_inj hb ha d
  change (t.writeCell (plus s a d) i').readCell (plus s b d) = _
  simp only [State.readCell_writeCell, hsame, hcells b hb]

theorem Rotated.writeField (h : Rotated d s t) {a a' : Nat} (ha : a < s.cfg.coreSize)
    (ha' : a' = plus s a d) (f : Field) (v : Nat) :
    Rotated d (s.writeField a f v) (t.writeField a' f v) := by
  refine h.writeCell ha ha' ?_
  rw [ha', h.readCell_eq ha]

theorem Rotated.pushBack (h : Rotated d s t) {k k' : Player} (hk : k' = k) {a a' : Nat}
    (ha : a' = plus s a d) : Rotated d (s.pushBack k a) (t.pushBack k' a') := by
  subst hk ha
  have hpush := h.withQueue k' (s.queue.get k' ++ [a])
  rwa [List.map_append, ← h.queue_eq] at hpush

theorem Rotated.popped (h : Rotated d s t) (q : List Nat) :
    Rotated d (s.popped q) (t.popped (q.map (plus s · d))) := by
  have hpop := h.withQueue s.turn q
  unfold State.popped
  rwa [show t.queue.set t.turn = t.queue.set s.turn by rw [h.turn_eq]]

theorem Rotated.front (h : Rotated d s t) {k : Player} {p : Nat} {q : List Nat}
    (hfront : s.Front k p q) : t.Front k (plus s p d) (q.map (plus s · d)) := by
  obtain ⟨hq, -⟩ := hfront
  refine ⟨by rw [h.queue_eq, hq, List.map_cons], ?_⟩
  rw [h.cfg_eq]
  exact s.after_lt p d

end

end Sys2Proof.Spec

namespace Sys2Proof.Machine

open Sys2Proof.Spec

/-! ### The operands of a rotated step -/

/-- `o'` are the operands `o` with the addresses moved `d` cells and the same copies of the operand
cells; the addresses read, which only the report holds, are left out. -/
structure Operands.Moved (size d : Nat) (o o' : Operands) : Prop where
  p_eq : o'.p = wrap size o.p d
  ps_eq : o'.ps = wrap size o.ps d
  pd_eq : o'.pd = wrap size o.pd d
  src_eq : o'.src = o.src
  dst_eq : o'.dst = o.dst

section
variable {d : Nat} {s t : State}

theorem indirect_wrap (cfg : Config) (p m disp d : Nat) :
    indirect cfg (wrap cfg.coreSize p d) (wrap cfg.coreSize m d) disp =
      wrap cfg.coreSize (indirect cfg p m disp) d := by
  unfold indirect
  split <;> exact wrap_right_comm cfg.coreSize_pos _ _ _

/-- Every mode resolves to the rotated address: an intermediate cell, if any, reads the same. -/
theorem resolve_rotated (h : Rotated d s t) (p v : Nat) (mode : AddrMode) :
    (resolve t.cfg t.core (plus s p d) mode v).1 =
      plus s (resolve s.cfg s.core p mode v).1 d := by
  have hmove : wrap s.cfg.coreSize (plus s p d) v = plus s (wrap s.cfg.coreSize p v) d :=
    wrap_right_comm s.cfg.coreSize_pos _ _ _
  have hcell : coreRead t.core (plus s (wrap s.cfg.coreSize p v) d) =
      coreRead s.core (wrap s.cfg.coreSize p v) := h.readCell_eq (s.after_lt p v)
  rw [h.cfg_eq]
  cases mode with
  | imm => rfl
  | dir => exact hmove
  | ain | bin =>
    simp only [resolve, hmove, hcell]
    exact indirect_wrap s.cfg _ _ _ d

theorem operandsOf_moved (h : Rotated d s t) (f : Fields) {p : Nat} (hp : p < s.cfg.coreSize) :
    (operandsOf f p s).Moved s.cfg.coreSize d (operandsOf f (plus s p d) t) where
  p_eq := rfl
  ps_eq := resolve_rotated h p f.aVal f.aMode
  pd_eq := resolve_rotated h p f.bVal f.bMode
  src_eq := by
    simp only [operandsOf, resolve_rotated h]
    exact h.readCell_eq (resolve_lt _ _ hp _ _)
  dst_eq := by
    simp only [operandsOf, resolve_rotated h]
    exact h.readCell_eq (resolve_lt _ _ hp _ _)

/-! ### The effect of a rotated step -/

variable {o o' : Operands}

theorem wrap_moved (h : Rotated d s t) (hm : o.Moved s.cfg.coreSize d o') (n : Int) :
    wrap t.cfg.coreSize o'.p n = plus s (wrap s.cfg.coreSize o.p n) d := by
  rw [h.cfg_eq, hm.p_eq]
  exact wrap_right_comm s.cfg.coreSize_pos _ _ _

theorem branchEffect_rotated (h : Rotated d s t) (hm : o.Moved s.cfg.coreSize d o') (taken : Bool)
    {target target' : Nat} (htarget : target' = plus s target d) :
    Rotated d (branchEffect taken target o s).state (branchEffect taken target' o' t).state := by
  refine h.pushBack h.turn_eq ?_
  cases taken with
  | true => exact htarget
  | false => exact wrap_moved h hm 1

theorem forkEffect_rotated (h : Rotated d s t) (hm : o.Moved s.cfg.coreSize d o') :
    Rotated d (forkEffect o s).state (forkEffect o' t).state := by
  have hnext : Rotated d (s.pushBack s.turn (wrap s.cfg.coreSize o.p 1))
      (t.pushBack t.turn (wrap t.cfg.coreSize o'.p 1)) := h.pushBack h.turn_eq (wrap_moved h hm 1)
  have hcount : (t.queue.get t.turn).length = (s.queue.get s.turn).length := by
    rw [h.turn_eq, h.queue_eq, List.length_map]
  rw [forkEffect_eq, forkEffect_eq, hcount, congrArg Config.maxProcesses h.cfg_eq]
  dsimp only
  split
  · exact hnext.pushBack h.turn_eq hm.ps_eq
  · exact hnext

theorem pairValue_rotated (h : Rotated d s t) (hm : o.Moved s.cfg.coreSize d o') (g : FieldOp) :
    pairValue g t.cfg.coreSize o' = pairValue g s.cfg.coreSize o := by
  funext q
  rw [pairValue, pairValue, h.cfg_eq, hm.src_eq, hm.dst_eq]

theorem writePairs_rotated (h : Rotated d s t) (hpd : o.pd < s.cfg.coreSize)
    (hm : o.Moved s.cfg.coreSize d o') (g : FieldOp) (l : List (Field × Field)) :
    Rotated d (writePairs g s.cfg.coreSize o l s) (writePairs g t.cfg.coreSize o' l t) := by
  induction l generalizing s t with
  | nil => exact h
  | cons q l ih =>
    rw [writePairs, writePairs, pairValue_rotated h hm]
    split
    · exact ih (h.writeField hpd hm.pd_eq q.2 _) hpd hm
    · exact ih h hpd hm

theorem dataEffect_rotated (h : Rotated d s t) (hpd : o.pd < s.cfg.coreSize)
    (hm : o.Moved s.cfg.coreSize d o') (g : FieldOp) (m : Modifier) :
    Rotated d (dataEffect g m o s).state (dataEffect g m o' t).state := by
  have hwrites : Rotated d { s with core := (writePairs g s.cfg.coreSize o (pairs m) s).core }
      { t with core := (writePairs g t.cfg.coreSize o' (pairs m) t).core } := by
    rw [← writePairs_eq, ← writePairs_eq]
    exact writePairs_rotated h hpd hm g (pairs m)
  rw [dataEffect_eq, dataEffect_eq, pairValue_rotated h hm]
  dsimp only
  split
  · exact hwrites
  · exact hwrites.pushBack h.turn_eq (wrap_moved h hm 1)

theorem moveEffect_rotated (h : Rotated d s t) (hpd : o.pd < s.cfg.coreSize)
    (hm : o.Moved s.cfg.coreSize d o') (m : Modifier) :
    Rotated d (moveEffect m o s).state (moveEffect m o' t).state := by
  cases m with
  | i => exact (h.writeCell hpd hm.pd_eq hm.src_eq).pushBack h.turn_eq (wrap_moved h hm 1)
  | a | b | ab | ba | f | x => exact dataEffect_rotated h hpd hm moveOp _

/-- Every instruction turns rotated states and moved operands into rotated states. -/
theorem effectOf_rotated (h : Rotated d s t) (hpd : o.pd < s.cfg.coreSize)
    (hm : o.Moved s.cfg.coreSize d o') (i : Instr) :
    Rotated d (effectOf i o s).state (effectOf i o' t).state := by
  cases i with
  | kil f => exact h
  | frk f => exact forkEffect_rotated h hm
  | nop f => exact h.pushBack h.turn_eq (wrap_moved h hm 1)
  | mov f => exact moveEffect_rotated h hpd hm f.mod
  | add f | sub f | mul f | div f | mod f => exact dataEffect_rotated h hpd hm _ f.mod
  | jmp f => exact h.pushBack h.turn_eq hm.ps_eq
  | jmz f | jmn f =>
    simp only [effectOf, hm.dst_eq]
    exact branchEffect_rotated h hm _ hm.ps_eq
  | beq f | bne f | blt f =>
    simp only [effectOf, hm.src_eq, hm.dst_eq]
    exact branchEffect_rotated h hm _ (wrap_moved h hm 2)

theorem turnEnd_rotated (h : Rotated d s t) (k : Player) :
    Rotated d (turnEnd k s) (turnEnd k t) := by
  have hempty : t.queue.get k = [] ↔ s.queue.get k = [] := by
    rw [h.queue_eq, List.map_eq_nil_iff]
  simp only [turnEnd, hempty]
  split
  · exact h.withRound _
  · exact h

theorem cycleEnd_rotated (h : Rotated d s t) : Rotated d (cycleEnd s) (cycleEnd t) := by
  have hlast : (t.roundState = .ongoing ∧ t.cfg.maxCycles ≤ t.currentCycle) ↔
      (s.roundState = .ongoing ∧ s.cfg.maxCycles ≤ s.currentCycle) := by
    rw [h.round_eq, h.cfg_eq, h.cycle_eq]
  simp only [cycleEnd, hlast]
  split
  · exact h.withRound .draw
  · exact h

end

/-! ### A rotated instruction and a rotated cycle -/

/-- Where `f` answers a next state, it answers the rotation of it from the rotated state. -/
def KeepsRotations (f : State → Host.Outcome State Fault Refusal) : Prop :=
  ∀ d s t s', Rotated d s t → f s = .next s' → ∃ t', f t = .next t' ∧ Rotated d s' t'

theorem exec_keepsRotations (i : Instr) : KeepsRotations (exec i) := by
  intro d s t s' h hexec
  obtain ⟨p, q, hfront, rfl⟩ := exec_eq_next.1 hexec
  have hfront' := h.front hfront
  rw [← h.turn_eq] at hfront'
  refine ⟨_, exec_eq_next.2 ⟨_, _, hfront', rfl⟩, ?_⟩
  have hmoved := operandsOf_moved h i.fields hfront.2
  have hpd := (operandsOf_inCore i.fields hfront.2).pd_lt
  exact (effectOf_rotated (h.popped q) hpd hmoved i).finishStep i _ _ _ _

theorem stepProcess_keepsRotations (k : Player) : KeepsRotations (stepProcess k) := by
  intro d s t s' h hstep
  obtain ⟨p, q, u, hfront, hexec, rfl⟩ := stepProcess_eq_next.1 hstep
  obtain ⟨u', hexec', hu⟩ := exec_keepsRotations _ _ _ _ _ (h.withTurn k) hexec
  rw [← h.readCell_eq hfront.2] at hexec'
  refine ⟨_, stepProcess_eq_next.2 ⟨_, _, u', h.front hfront, hexec', rfl⟩, ?_⟩
  rw [h.turn_eq]
  exact hu.withTurn s.turn

theorem playerTurn_keepsRotations (k : Player) : KeepsRotations (playerTurn k) := by
  intro d s t s' h hturn
  rcases playerTurn_eq_next.1 hturn with ⟨hidle, rfl⟩ | ⟨hloaded, u, hstep, rfl⟩
  · rw [← h.loaded_eq] at hidle
    exact ⟨t, playerTurn_eq_next.2 (.inl ⟨hidle, rfl⟩), h⟩
  · obtain ⟨u', hstep', hu⟩ := stepProcess_keepsRotations k _ _ _ _ h hstep
    rw [← h.loaded_eq] at hloaded
    exact ⟨_, playerTurn_eq_next.2 (.inr ⟨hloaded, u', hstep', rfl⟩), turnEnd_rotated hu k⟩

theorem executeCycle_keepsRotations : KeepsRotations executeCycle := by
  intro d s t s' h hcycle
  rcases s.noop_or_cycleLeft with hnoop | ⟨hround, hleft⟩
  · rw [executeCycle_noop hnoop] at hcycle
    cases hcycle
    rw [← h.round_eq, ← h.cycle_eq, ← h.cfg_eq] at hnoop
    exact ⟨t, executeCycle_noop hnoop, h⟩
  obtain ⟨u, hturn1, hrest⟩ := (executeCycle_eq_next hround hleft).1 hcycle
  rw [← h.round_eq] at hround
  rw [← h.cycle_eq, ← h.cfg_eq] at hleft
  have hcycle' {t' : State} := executeCycle_eq_next (s := t) (t := t') hround hleft
  obtain ⟨u', hturn1', hu⟩ := playerTurn_keepsRotations .p1 d _ _ _ h.nextCycle hturn1
  rcases hrest with ⟨hover, rfl⟩ | ⟨hgoes, v, hturn2, rfl⟩
  · rw [← hu.round_eq] at hover
    exact ⟨u', hcycle'.2 ⟨u', hturn1', .inl ⟨hover, rfl⟩⟩, hu⟩
  · obtain ⟨v', hturn2', hv⟩ := playerTurn_keepsRotations .p2 d u u' v hu hturn2
    rw [← hu.round_eq] at hgoes
    exact ⟨_, hcycle'.2 ⟨u', hturn1', .inr ⟨hgoes, v', hturn2', rfl⟩⟩, cycleEnd_rotated hv⟩

/-- Settles O32: the operations of a step keep a rotation, for moves round the core commute
(`wrap_right_comm`), so instructions, turns and cycles do. -/
theorem executionIsPositionIndependent : Obligations.ExecutionIsPositionIndependent :=
  fun d s t h => ⟨fun i s' => exec_keepsRotations i d s t s' h,
    fun s' => executeCycle_keepsRotations d s t s' h⟩

end Sys2Proof.Machine

namespace Sys2Proof.Spec

open Sys2Proof.Machine

/-! ### What an instruction may change of the core (R64) -/

theorem OnlyCell.of_core_eq {s t u : State} {a : Nat} {c : Instr} (h : OnlyCell s t a c)
    (hcore : u.core = t.core) : OnlyCell s u a c := by
  simpa only [OnlyCell, State.readCell, hcore] using h

end Sys2Proof.Spec

namespace Sys2Proof.Machine

open Sys2Proof.Spec

/-! The value fields of the cell a data instruction writes. -/

theorem withValues_self (c : Instr) : withValues c (av c) (bv c) = c :=
  Instr.instr_op_fields c

theorem setField_eq_withValues (c : Instr) (d : Field) (v : Nat) :
    ∃ a b, setField c d v = withValues c a b := by
  cases d with
  | aVal => exact ⟨v, bv c, setField_aVal_eq_withValues c v⟩
  | bVal => exact ⟨av c, v, setField_bVal_eq_withValues c v⟩

theorem withValues_withValues (c : Instr) (a b a' b' : Nat) :
    withValues (withValues c a b) a' b' = withValues c a' b' := by
  simp [withValues]

theorem readField_setField_ne (c : Instr) {d e : Field} (h : d ≠ e) (v : Nat) :
    readField (setField c e v) d = readField c d := by
  match d, e with
  | .aVal, .aVal | .bVal, .bVal => exact absurd rfl h
  | .aVal, .bVal | .bVal, .aVal => simp [readField]

section
variable (g : FieldOp) (size : Nat) (o : Operands) (l : List (Field × Field)) (c : Instr)

/-- The pair writes change no field but the two values. -/
theorem updatedCell_eq_withValues : ∃ a b, updatedCell g size o l c = withValues c a b := by
  induction l generalizing c with
  | nil => exact ⟨av c, bv c, (withValues_self c).symm⟩
  | cons q l ih =>
    unfold updatedCell
    split
    · rename_i v _
      obtain ⟨a, b, hset⟩ := setField_eq_withValues c q.2 v
      obtain ⟨a', b', hrest⟩ := ih (setField c q.2 v)
      exact ⟨a', b', by rw [hrest, hset, withValues_withValues]⟩
    · exact ih c

/-- The pair writes leave a value field that no pair has as its destination. -/
theorem readField_updatedCell {d : Field} (hd : d ∉ l.map Prod.snd) :
    readField (updatedCell g size o l c) d = readField c d := by
  induction l generalizing c with
  | nil => rfl
  | cons q l ih =>
    rw [List.map_cons, List.mem_cons, not_or] at hd
    obtain ⟨hq, hl⟩ := hd
    unfold updatedCell
    split
    · rw [ih _ hl, readField_setField_ne c hq]
    · exact ih c hl

end

/-! What each instruction does to the cells. -/

/-- The cell `c` with new values, each only where modifier `m` selects it. -/
def SelectedChange (m : Modifier) (c c' : Instr) : Prop :=
  ∃ a b, c' = withValues c a b ∧
    (m = .a ∨ m = .ba → b = bv c) ∧ (m = .b ∨ m = .ab → a = av c)

theorem selectedChange_self (m : Modifier) (c : Instr) : SelectedChange m c c :=
  ⟨av c, bv c, (withValues_self c).symm, fun _ => rfl, fun _ => rfl⟩

theorem selectedChange_updatedCell (g : FieldOp) (size : Nat) (o : Operands) (m : Modifier)
    (c : Instr) : SelectedChange m c (updatedCell g size o (pairs m) c) := by
  obtain ⟨a, b, hcell⟩ := updatedCell_eq_withValues g size o (pairs m) c
  have hkept {d : Field} := readField_updatedCell g size o (pairs m) c (d := d)
  have hav : readField (withValues c a b) .aVal = a := by simp [readField, withValues]
  have hbv : readField (withValues c a b) .bVal = b := by simp [readField, withValues]
  rw [hcell] at hkept
  refine ⟨a, b, hcell, fun hm => ?_, fun hm => ?_⟩
  · rw [← hbv, hkept (by rcases hm with rfl | rfl <;> decide)]
    rfl
  · rw [← hav, hkept (by rcases hm with rfl | rfl <;> decide)]
    rfl

/-- The opcodes that write no cell. -/
abbrev coreKeepers : List Opcode := [.kil, .frk, .nop, .jmp, .jmz, .jmn, .beq, .bne, .blt]

theorem forkEffect_core (o : Operands) (s : State) : (forkEffect o s).state.core = s.core := by
  rw [forkEffect_eq]
  dsimp only
  split <;> rfl

theorem effectOf_core {i : Instr} (hi : i.op ∈ coreKeepers) (o : Operands) (s : State) :
    (effectOf i o s).state.core = s.core := by
  cases i with
  | kil f | nop f | jmp f | jmz f | jmn f | beq f | bne f | blt f => rfl
  | frk f => exact forkEffect_core o s
  | mov f | add f | sub f | mul f | div f | mod f => simp at hi

theorem onlyCell_writeCell (s : State) (a : Nat) (c : Instr) :
    OnlyCell s (s.writeCell a c) a c :=
  ⟨s.readCell_writeCell_same a c, fun b hb => by rw [State.readCell_writeCell, if_neg hb]⟩

theorem dataEffect_onlyCell (g : FieldOp) (m : Modifier) (o : Operands) (s : State) :
    OnlyCell s (dataEffect g m o s).state o.pd
      (updatedCell g s.cfg.coreSize o (pairs m) (s.readCell o.pd)) := by
  have hcore : (dataEffect g m o s).state.core =
      (writePairs g s.cfg.coreSize o (pairs m) s).core := by
    rw [dataEffect_eq]
    dsimp only
    split <;> rfl
  refine OnlyCell.of_core_eq ⟨?_, fun a ha => ?_⟩ hcore
  · rw [writePairs_readCell, if_pos rfl]
  · rw [writePairs_readCell, if_neg ha]

theorem dataEffect_changes (g : FieldOp) (m : Modifier) (o : Operands) (s : State) :
    ∃ c, OnlyCell s (dataEffect g m o s).state o.pd c ∧ SelectedChange m (s.readCell o.pd) c :=
  ⟨_, dataEffect_onlyCell g m o s, selectedChange_updatedCell g _ o m _⟩

theorem moveEffect_changes (m : Modifier) (o : Operands) (s : State) :
    ∃ c, OnlyCell s (moveEffect m o s).state o.pd c ∧
      (m = .i ∨ SelectedChange m (s.readCell o.pd) c) := by
  cases m with
  | i =>
    exact ⟨o.src, (onlyCell_writeCell s o.pd o.src).of_core_eq rfl, .inl rfl⟩
  | a | b | ab | ba | f | x =>
    exact (dataEffect_changes moveOp _ o s).imp fun _ => And.imp_right .inr

/-- Every instruction changes at most the cell `pd`: `MOV.I` in any field, every other one in the
values its modifier selects. -/
theorem effectOf_changes (i : Instr) (o : Operands) (s : State) :
    ∃ c, OnlyCell s (effectOf i o s).state o.pd c ∧
      ((i.op = .mov ∧ i.fields.mod = .i) ∨ SelectedChange i.fields.mod (s.readCell o.pd) c) := by
  have hkept (hi : i.op ∈ coreKeepers) :
      OnlyCell s (effectOf i o s).state o.pd (s.readCell o.pd) :=
    OnlyCell.of_core_eq ⟨rfl, fun _ _ => rfl⟩ (effectOf_core hi o s)
  cases i with
  | kil f | frk f | nop f | jmp f | jmz f | jmn f | beq f | bne f | blt f =>
    exact ⟨_, hkept (by simp), .inr (selectedChange_self _ _)⟩
  | add f | sub f | mul f | div f | mod f =>
    exact (dataEffect_changes _ f.mod o s).imp fun _ => And.imp_right .inr
  | mov f =>
    exact (moveEffect_changes f.mod o s).imp fun _ =>
      And.imp_right (Or.imp_left fun hm => ⟨rfl, hm⟩)

/-- Settles O29: the popped state, on which the effect acts, has the cells of `s`. -/
theorem onlyTheSelectedFieldsOfOneCellChange :
    Obligations.OnlyTheSelectedFieldsOfOneCellChange := by
  intro i s t p q hfront hexec
  obtain ⟨p', q', hfront', rfl⟩ := exec_eq_next.1 hexec
  obtain ⟨rfl, rfl⟩ : p' = p ∧ q' = q := by simpa [hfront.1, eq_comm] using hfront'.1
  let o := operandsOf i.fields p' s
  obtain ⟨c, ⟨hpd, hother⟩, hchange⟩ := effectOf_changes i o (s.popped q')
  rw [← hpd] at hchange
  exact ⟨hother, fun hi => effectOf_core hi o (s.popped q'), hchange⟩

end Sys2Proof.Machine

/-! SUPPORT. Proofs of the statements of `30_encoding.md`: the 12-byte record and the stream reader
(R90 to R101), the canonical spelling (R116), and that every Instruction has a meaning (R91). -/

namespace Sys2Proof

open Sys2Proof.Spec

/-! ### The tag tables (R93 to R95) -/

theorem opcodeOfTag_eq_some_iff {n : Nat} {o : Opcode} : opcodeOfTag n = some o ↔ o.tag = n := by
  constructor
  · intro h
    unfold opcodeOfTag at h
    split at h <;> cases h <;> rfl
  · rintro rfl
    cases o <;> rfl

theorem opcodeOfTag_eq_none_iff {n : Nat} : opcodeOfTag n = none ↔ 14 < n := by
  unfold opcodeOfTag
  split <;> grind

theorem modifierOfTag_eq_some_iff {n : Nat} {m : Modifier} :
    modifierOfTag n = some m ↔ m.tag = n := by
  constructor
  · intro h
    unfold modifierOfTag at h
    split at h <;> cases h <;> rfl
  · rintro rfl
    cases m <;> rfl

theorem modifierOfTag_eq_none_iff {n : Nat} : modifierOfTag n = none ↔ 6 < n := by
  unfold modifierOfTag
  split <;> grind

theorem modeOfTag_eq_some_iff {n : Nat} {m : AddrMode} : modeOfTag n = some m ↔ m.tag = n := by
  constructor
  · intro h
    unfold modeOfTag at h
    split at h <;> cases h <;> rfl
  · rintro rfl
    cases m <;> rfl

theorem modeOfTag_eq_none_iff {n : Nat} : modeOfTag n = none ↔ 3 < n := by
  unfold modeOfTag
  split <;> grind

/-! Every tag fits its byte. -/

@[simp] theorem Opcode.toNat_tag (o : Opcode) : (BitVec.ofNat 8 o.tag).toNat = o.tag := by
  cases o <;> rfl

@[simp] theorem Modifier.toNat_tag (m : Modifier) : (BitVec.ofNat 8 m.tag).toNat = m.tag := by
  cases m <;> rfl

@[simp] theorem AddrMode.toNat_tag (m : AddrMode) : (BitVec.ofNat 8 m.tag).toNat = m.tag := by
  cases m <;> rfl

/-! ### The value fields (R96) -/

theorem valueOfBytes_lt (b0 b1 b2 b3 : Byte) : valueOfBytes b0 b1 b2 b3 < 2 ^ 32 := by
  unfold valueOfBytes
  omega

theorem byteOf_toNat (w k : Nat) : (byteOf w k).toNat = w / 256 ^ k % 256 := rfl

theorem valueOfBytes_byteOf {v : Nat} (h : v < 2 ^ 32) :
    valueOfBytes (byteOf v 0) (byteOf v 1) (byteOf v 2) (byteOf v 3) = v := by
  simp only [valueOfBytes, byteOf_toNat]
  omega

theorem valueBytes_valueOfBytes (b0 b1 b2 b3 : Byte) :
    valueBytes (valueOfBytes b0 b1 b2 b3) = [b0, b1, b2, b3] := by
  have byte {k : Nat} {b : Byte} (h : valueOfBytes b0 b1 b2 b3 / 256 ^ k % 256 = b.toNat) :
      byteOf (valueOfBytes b0 b1 b2 b3) k = b := BitVec.eq_of_toNat_eq h
  simp only [valueBytes, List.cons.injEq, and_true]
  refine ⟨byte ?_, byte ?_, byte ?_, byte ?_⟩ <;> unfold valueOfBytes <;> omega

/-! ### The decoder and the encoder (R98, R99) -/

/-- An Instruction is made of its opcode and its five other fields. -/
@[simp] theorem Instr.instr_op_each_field (i : Instr) :
    i.op.instr ⟨i.fields.mod, i.fields.aMode, i.fields.bMode, av i, bv i⟩ = i :=
  Machine.Instr.instr_op_fields i

theorem Opcode.instr_eq_iff {o : Opcode} {m : Modifier} {am bm : AddrMode} {a b : Nat}
    {i : Instr} : o.instr ⟨m, am, bm, a, b⟩ = i ↔
      o = i.op ∧ m = i.fields.mod ∧ am = i.fields.aMode ∧ bm = i.fields.bMode ∧
        av i = a ∧ bv i = b := by
  constructor
  · rintro rfl
    simp [av, bv]
  · rintro ⟨rfl, rfl, rfl, rfl, rfl, rfl⟩
    exact i.instr_op_each_field

/-- The tags and values name an Instruction exactly when they are its own. -/
theorem instrOfTags_eq_ok_iff {op m am bm a b : Nat} {i : Instr} :
    instrOfTags op m am bm a b = .ok i ↔
      i.op.tag = op ∧ i.fields.mod.tag = m ∧ i.fields.aMode.tag = am ∧ i.fields.bMode.tag = bm ∧
        av i = a ∧ bv i = b := by
  rw [← opcodeOfTag_eq_some_iff, ← modifierOfTag_eq_some_iff, ← modeOfTag_eq_some_iff,
    ← modeOfTag_eq_some_iff]
  unfold instrOfTags
  cases opcodeOfTag op with
  | none => simp
  | some o =>
    cases modifierOfTag m with
    | none => simp
    | some md =>
      cases modeOfTag am with
      | none => simp
      | some amd => cases modeOfTag bm <;> simp [Opcode.instr_eq_iff]

/-- The tags are refused exactly when one of them is above its table. -/
theorem instrOfTags_error_iff {op m am bm a b : Nat} :
    (∃ e, instrOfTags op m am bm a b = .error e) ↔ 14 < op ∨ 6 < m ∨ 3 < am ∨ 3 < bm := by
  rw [← opcodeOfTag_eq_none_iff, ← modifierOfTag_eq_none_iff, ← modeOfTag_eq_none_iff,
    ← modeOfTag_eq_none_iff]
  unfold instrOfTags
  cases opcodeOfTag op with
  | none => simp
  | some o =>
    cases modifierOfTag m with
    | none => simp
    | some md =>
      cases modeOfTag am with
      | none => simp
      | some amd => cases modeOfTag bm <;> simp

/-- Encoder and decoder are inverse to each other: a byte sequence decodes to `i` exactly when it is
the record of `i` and the values of `i` fit their four bytes. -/
theorem decode_eq_ok_iff {bytes : List Byte} {i : Instr} :
    decode bytes = .ok i ↔ encode i = bytes ∧ i.encodable := by
  constructor
  · intro h
    unfold decode at h
    split at h
    · obtain ⟨hop, hmod, ham, hbm, ha, hb⟩ := instrOfTags_eq_ok_iff.1 h
      constructor
      · simp [encode, hop, hmod, ham, hbm, ha, hb, valueBytes_valueOfBytes]
      · exact ⟨ha.trans_lt (valueOfBytes_lt ..), hb.trans_lt (valueOfBytes_lt ..)⟩
    · cases h
  · rintro ⟨rfl, ha, hb⟩
    exact instrOfTags_eq_ok_iff.2 ⟨(Opcode.toNat_tag _).symm, (Modifier.toNat_tag _).symm,
      (AddrMode.toNat_tag _).symm, (AddrMode.toNat_tag _).symm,
      (valueOfBytes_byteOf ha).symm, (valueOfBytes_byteOf hb).symm⟩

/-- Settles O1: tags above their tables are refused, all others are those of the Instruction
decoded; the round trip is one direction of `decode_eq_ok_iff`. -/
theorem decodeFollowsTheRecordAndInvertsEncode :
    Obligations.DecodeFollowsTheRecordAndInvertsEncode := by
  constructor
  · intro b0 b1 b2 b3 b4 b5 b6 b7 b8 b9 b10 b11
    split
    · rename_i hbad
      exact instrOfTags_error_iff.2 hbad
    · rename_i hgood
      cases hdecode : decode [b0, b1, b2, b3, b4, b5, b6, b7, b8, b9, b10, b11] with
      | error e => exact absurd (instrOfTags_error_iff.1 ⟨e, hdecode⟩) hgood
      | ok i => exact ⟨i, rfl, instrOfTags_eq_ok_iff.1 hdecode⟩
  · exact fun i hi => decode_eq_ok_iff.2 ⟨rfl, hi⟩

/-- Settles O2: the other direction of `decode_eq_ok_iff`. -/
theorem encodeInvertsDecode : Obligations.EncodeInvertsDecode :=
  fun _ _ => decode_eq_ok_iff.1

theorem encodeProgram_append (is js : List Instr) :
    encodeProgram (is ++ js) = encodeProgram is ++ encodeProgram js :=
  List.flatMap_append

theorem encodeProgram_singleton (i : Instr) : encodeProgram [i] = encode i :=
  List.append_nil _

/-- The four bytes of a value with the powers of 256 written out. -/
theorem valueBytes_eq (v : Nat) : valueBytes v =
    [BitVec.ofNat 8 v, BitVec.ofNat 8 (v / 256), BitVec.ofNat 8 (v / 65536),
      BitVec.ofNat 8 (v / 16777216)] := by
  simp [valueBytes, byteOf]

/-- Settles O3: the record field by field, and programs as concatenated records. -/
theorem encodeWritesTheRecordFields : Obligations.EncodeWritesTheRecordFields := by
  refine ⟨fun i => ?record, encodeProgram_append, encodeProgram_singleton, by decide⟩
  case record =>
    unfold encode
    rw [valueBytes_eq, valueBytes_eq]
    rfl

/-! ### The stream reader (R100) -/

/-- Record `j` of a stream: the up to 12 bytes there. -/
def recordAt (bytes : List Byte) (j : Nat) : List Byte := (bytes.drop (12 * j)).take 12

theorem recordAt_zero (bytes : List Byte) : recordAt bytes 0 = bytes.take 12 := rfl

theorem recordAt_succ (bytes : List Byte) (j : Nat) :
    recordAt bytes (j + 1) = recordAt (bytes.drop 12) j := by
  simp [recordAt, Nat.mul_add, Nat.add_comm]

/-- The reader reads back a record written in front of a stream. -/
theorem decodeProgram_encode_append {i : Instr} (hi : i.encodable) (rest : List Byte) :
    decodeProgram (encode i ++ rest) = i :: decodeProgram rest := by
  have hdecode : decode (encode i) = .ok i := decode_eq_ok_iff.2 ⟨rfl, hi⟩
  simp only [encode, valueBytes, List.cons_append, List.nil_append] at hdecode ⊢
  simp only [decodeProgram, hdecode]

/-- A first record that decodes is read, and the reader goes on behind it. -/
theorem decodeProgram_of_ok {bytes : List Byte} {i : Instr}
    (h : decode (recordAt bytes 0) = .ok i) :
    decodeProgram bytes = i :: decodeProgram (bytes.drop 12) := by
  obtain ⟨hrecord, hi⟩ := decode_eq_ok_iff.1 h
  calc decodeProgram bytes
      = decodeProgram (encode i ++ bytes.drop 12) := by
        rw [hrecord, recordAt_zero, List.take_append_drop]
    _ = i :: decodeProgram (bytes.drop 12) := decodeProgram_encode_append hi _

/-- The reader stops at a first record that is short or malformed. -/
theorem decodeProgram_of_error {bytes : List Byte} {e : DecodeError}
    (h : decode (recordAt bytes 0) = .error e) : decodeProgram bytes = [] := by
  unfold decodeProgram
  split
  · split
    · rename_i hok
      cases h.symm.trans hok
    · rfl
  · rfl

/-- Settles O5, by induction on the list read: the reader is at its end exactly when the record in
front of it does not decode. -/
theorem streamReaderStopsAtTheFirstBadRecord :
    Obligations.StreamReaderStopsAtTheFirstBadRecord := by
  intro bytes
  change (∀ j i, (decodeProgram bytes)[j]? = some i → decode (recordAt bytes j) = .ok i) ∧
    ∃ e, decode (recordAt bytes (decodeProgram bytes).length) = .error e
  induction hread : decodeProgram bytes generalizing bytes with
  | nil =>
    cases hfirst : decode (recordAt bytes 0) with
    | ok i => simp [decodeProgram_of_ok hfirst] at hread
    | error e => exact ⟨by simp, e, rfl⟩
  | cons i is ih =>
    cases hfirst : decode (recordAt bytes 0) with
    | error e => simp [decodeProgram_of_error hfirst] at hread
    | ok i' =>
      rw [decodeProgram_of_ok hfirst] at hread
      obtain ⟨rfl, hrest⟩ := List.cons.inj hread
      obtain ⟨hrecords, hstop⟩ := ih _ hrest
      constructor
      · intro j k hk
        cases j with
        | zero => rwa [Option.some.inj hk] at hfirst
        | succ j => exact recordAt_succ bytes j ▸ hrecords j k hk
      · rwa [List.length_cons, recordAt_succ]

end Sys2Proof

namespace Sys2Proof.Assembly

/-! ### Characters of the canonical spelling -/

/-- The character neither starts a comment nor ends a line. -/
abbrev InLine (c : Char) : Prop := c ≠ ';' ∧ c ≠ '\n'

/-- The token stands in a line as it is: it is not empty and nothing in it splits it or cuts it. -/
structure Plain (t : Token) : Prop where
  ne_nil : t ≠ []
  no_separator : ∀ c ∈ t, isDropped c = false ∧ isKept c = false
  inLine : ∀ c ∈ t, InLine c

theorem plain_opcodeName (o : Opcode) : Plain (opcodeName o) := by
  cases o <;> constructor <;> simp [opcodeName, isDropped, isKept, InLine]

theorem plain_modifierName (m : Modifier) : Plain (modifierName m) := by
  cases m <;> constructor <;> simp [modifierName, isDropped, isKept, InLine]

theorem isKept_modeSymbol (m : AddrMode) : isKept (modeSymbol m) = true := by
  cases m <;> rfl

/-- A kept separator is no dropped one and stands in a line as it is. -/
theorem not_dropped_of_isKept {c : Char} (h : isKept c = true) :
    isDropped c = false ∧ InLine c := by
  simp only [isKept, List.contains_eq_mem, decide_eq_true_eq, List.mem_cons, List.not_mem_nil,
    or_false] at h
  obtain rfl | rfl | rfl | rfl | rfl | rfl | rfl := h <;> decide

theorem isDigitChar_iff {c : Char} : isDigitChar c = true ↔ 48 ≤ c.toNat ∧ c.toNat ≤ 57 := by
  simp [isDigitChar]

theorem ne_of_isDigitChar {c d : Char} (hc : isDigitChar c = true) (hd : isDigitChar d = false) :
    c ≠ d := by
  rintro rfl
  exact Bool.noConfusion (hc.symm.trans hd)

theorem plain_of_digits {t : Token} (hne : t ≠ []) (ht : ∀ c ∈ t, isDigitChar c = true) :
    Plain t := by
  have hdigit {c : Char} (hc : c ∈ t) (d : Char) (hd : isDigitChar d = false) : c ≠ d :=
    ne_of_isDigitChar (ht c hc) hd
  refine ⟨hne, fun c hc => ?separators, fun c hc => ⟨hdigit hc _ rfl, hdigit hc _ rfl⟩⟩
  case separators => simp [isDropped, isKept, hdigit hc, isDigitChar]

/-! ### Decimals -/

theorem digitChar_toNat : ∀ d < 10, (Char.ofNat (48 + d)).toNat = 48 + d := by decide

theorem digitsValue_cons_digit {d : Nat} (hd : d < 10) (rest : List Char) (acc : Nat) :
    digitsValue (Char.ofNat (48 + d) :: rest) acc = digitsValue rest (10 * acc + d) := by
  rw [digitsValue, List.foldl_cons, digitChar_toNat d hd, Nat.add_sub_cancel_left, digitsValue]

/-- The digits `decimalFrom` writes denote `n`, whatever follows them. -/
theorem digitsValue_decimalFrom {fuel n : Nat} (h : n < fuel) (rest : List Char) :
    digitsValue (decimalFrom fuel n rest) 0 = digitsValue rest n := by
  induction fuel generalizing n rest with
  | zero => omega
  | succ fuel ih =>
    have hlast : n % 10 < 10 := Nat.mod_lt n (by decide)
    unfold decimalFrom
    split
    · rw [digitsValue_cons_digit hlast]
      congr 1
      omega
    · rw [ih (by omega), digitsValue_cons_digit hlast]
      congr 1
      omega

theorem isDigitChar_of_mem_decimalFrom {fuel n : Nat} {rest : List Char} {c : Char}
    (h : c ∈ decimalFrom fuel n rest) : isDigitChar c = true ∨ c ∈ rest := by
  induction fuel generalizing n rest with
  | zero => exact .inr h
  | succ fuel ih =>
    have hhead : c ∈ Char.ofNat (48 + n % 10) :: rest → isDigitChar c = true ∨ c ∈ rest := by
      intro hc
      refine (List.mem_cons.1 hc).imp_left ?_
      rintro rfl
      rw [isDigitChar_iff, digitChar_toNat (n % 10) (by omega)]
      omega
    unfold decimalFrom at h
    split at h
    · exact hhead h
    · exact (ih h).elim .inl hhead

theorem decimalFrom_ne_nil {fuel n : Nat} {rest : List Char} (h : fuel ≠ 0 ∨ rest ≠ []) :
    decimalFrom fuel n rest ≠ [] := by
  induction fuel generalizing n rest with
  | zero => exact h.resolve_left fun h => h rfl
  | succ fuel ih =>
    unfold decimalFrom
    split
    · exact List.cons_ne_nil _ _
    · exact ih (.inr (List.cons_ne_nil _ _))

theorem isDigitChar_of_mem_decimal {n : Nat} {c : Char} (h : c ∈ decimal n) :
    isDigitChar c = true :=
  (isDigitChar_of_mem_decimalFrom h).resolve_right List.not_mem_nil

theorem decimal_ne_nil (n : Nat) : decimal n ≠ [] := decimalFrom_ne_nil (.inl n.succ_ne_zero)

theorem plain_decimal (n : Nat) : Plain (decimal n) :=
  plain_of_digits (decimal_ne_nil n) fun _ => isDigitChar_of_mem_decimal

theorem parseDigits_of_digits {t : Token} (hne : t ≠ []) (ht : ∀ c ∈ t, isDigitChar c = true) :
    parseDigits t = some (digitsValue t 0) := by
  unfold parseDigits
  split
  · exact absurd rfl hne
  · exact if_pos (List.all_eq_true.2 ht)

/-- A decimal reads as the number it was written for (R111). -/
theorem parseInteger_decimal (n : Nat) : parseInteger (decimal n) = some (n : Int) := by
  have hparse : parseDigits (decimal n) = some n := by
    rw [parseDigits_of_digits (decimal_ne_nil n) fun _ => isDigitChar_of_mem_decimal]
    exact congrArg some (digitsValue_decimalFrom n.lt_succ_self [])
  unfold parseInteger
  split
  · rename_i ds hminus
    have hhead : '-' ∈ decimal n := hminus ▸ List.mem_cons_self ..
    exact absurd rfl (ne_of_isDigitChar (isDigitChar_of_mem_decimal hhead) (by decide))
  · rw [hparse]
    rfl

/-! ### Tokens (R110) -/

/-- Characters that are no separators join the run read so far. -/
theorem tokensFrom_of_no_separator {t : Token}
    (ht : ∀ c ∈ t, isDropped c = false ∧ isKept c = false) (cs run : List Char) :
    tokensFrom (t ++ cs) run = tokensFrom cs (t.reverse ++ run) := by
  induction t generalizing run with
  | nil => rfl
  | cons c t ih =>
    obtain ⟨⟨hdropped, hkept⟩, ht⟩ := List.forall_mem_cons.1 ht
    simp [tokensFrom, hdropped, hkept, ih ht]

theorem Plain.tokensFrom_append {t : Token} (ht : Plain t) (cs : List Char) :
    tokensFrom (t ++ cs) [] = tokensFrom cs t.reverse := by
  rw [tokensFrom_of_no_separator ht.no_separator, List.append_nil]

theorem Plain.endRun_reverse {t : Token} (ht : Plain t) (rest : List Token) :
    endRun t.reverse rest = t :: rest := by
  unfold endRun
  split
  · rename_i hnil
    exact absurd (List.reverse_eq_nil_iff.1 hnil) ht.ne_nil
  · rw [List.reverse_reverse]

theorem Plain.tokensFrom_end {t : Token} (ht : Plain t) : tokensFrom t [] = [t] := by
  have h := ht.tokensFrom_append []
  rwa [List.append_nil, tokensFrom, ht.endRun_reverse] at h

theorem Plain.tokensFrom_kept {t : Token} (ht : Plain t) {c : Char} (hc : isKept c = true)
    (cs : List Char) : tokensFrom (t ++ c :: cs) [] = t :: [c] :: tokensFrom cs [] := by
  rw [ht.tokensFrom_append, tokensFrom]
  simp [hc, (not_dropped_of_isKept hc).1, ht.endRun_reverse]

theorem Plain.tokensFrom_space {t : Token} (ht : Plain t) (cs : List Char) :
    tokensFrom (t ++ ' ' :: cs) [] = t :: tokensFrom cs [] := by
  rw [ht.tokensFrom_append, tokensFrom]
  simp [isDropped, ht.endRun_reverse]

theorem tokensFrom_kept {c : Char} (hc : isKept c = true) (cs : List Char) :
    tokensFrom (c :: cs) [] = [c] :: tokensFrom cs [] := by
  simp [tokensFrom, hc, (not_dropped_of_isKept hc).1, endRun]

theorem tokensFrom_space (cs : List Char) : tokensFrom (' ' :: cs) [] = tokensFrom cs [] := rfl

/-- The spelling is one line without a comment. -/
theorem inLine_of_mem_spell {i : Instr} {c : Char} (h : c ∈ spell i) : InLine c := by
  have hsymbol (m : AddrMode) (hc : c = modeSymbol m) : InLine c :=
    (not_dropped_of_isKept (hc ▸ isKept_modeSymbol m)).2
  simp only [spell, List.mem_append, List.mem_cons, List.not_mem_nil, or_false] at h
  obtain (((((hc | rfl) | hc) | rfl | hc) | hc) | rfl | rfl | hc) | hc := h
  · exact (plain_opcodeName _).inLine c hc
  · decide
  · exact (plain_modifierName _).inLine c hc
  · decide
  · exact hsymbol _ hc
  · exact (plain_decimal _).inLine c hc
  · decide
  · decide
  · exact hsymbol _ hc
  · exact (plain_decimal _).inLine c hc

theorem stripComment_of_not_mem {l : List Char} (h : ';' ∉ l) : stripComment l = l := by
  refine List.takeWhile_eq_self_iff.2 fun c hc => ?_
  rw [bne_iff_ne]
  rintro rfl
  exact h hc

/-- The tokens of the canonical spelling from the A-operand on (R116). -/
def operandTokens (f : Fields) : List Token :=
  [modeSymbol f.aMode] :: decimal f.aVal :: [','] :: [modeSymbol f.bMode] :: [decimal f.bVal]

theorem tokenize_spell (i : Instr) : tokenize (spell i) =
    opcodeName i.op :: ['.'] :: modifierName i.fields.mod :: operandTokens i.fields := by
  have hcomment : ';' ∉ spell i := fun h => (inLine_of_mem_spell h).1 rfl
  rw [tokenize, stripComment_of_not_mem hcomment]
  simp only [spell, operandTokens, List.append_assoc, List.cons_append, List.nil_append]
  rw [(plain_opcodeName _).tokensFrom_kept rfl, (plain_modifierName _).tokensFrom_space,
    tokensFrom_kept (isKept_modeSymbol _), (plain_decimal _).tokensFrom_kept rfl, tokensFrom_space,
    tokensFrom_kept (isKept_modeSymbol _), (plain_decimal _).tokensFrom_end]

/-- A text without newline is one line. -/
theorem splitLines_of_not_mem {l : List Char} (h : '\n' ∉ l) : splitLines l = [l] := by
  induction l with
  | nil => rfl
  | cons c cs ih =>
    obtain ⟨hc, hcs⟩ := List.ne_and_not_mem_of_not_mem_cons h
    simp [splitLines, hc.symm, ih hcs]

/-! ### Reading the canonical spelling back (R257 to R261) -/

theorem matchOpcode_opcodeName (o : Opcode) : matchOpcode (opcodeName o) = some o := by
  cases o <;> decide

theorem matchModifier_modifierName (m : Modifier) : matchModifier (modifierName m) = some m := by
  cases m <;> decide

theorem matchSymbol_modeSymbol (m : AddrMode) : matchSymbol [modeSymbol m] = some m := by
  cases m <;> rfl

theorem parseModifier_modifierName (m : Modifier) (rest : List Token) :
    parseModifier (['.'] :: modifierName m :: rest) = .ok (some m, rest) := by
  simp [parseModifier, matchModifier_modifierName]

theorem operandValue_decimal {size v : Nat} (hv : v < size) (labels : Labels) (idx : Nat)
    (m : AddrMode) : operandValue size labels idx m (decimal v) = .ok v := by
  simp [operandValue, parseInteger_decimal, Machine.fmod_of_lt hv]

theorem parseOperand_spelled {size v : Nat} (hv : v < size) (labels : Labels) (idx : Nat)
    (m : AddrMode) (rest : List Token) :
    parseOperand size labels idx ([modeSymbol m] :: decimal v :: rest) = .ok (m, v, rest) := by
  simp [parseOperand, operandMode, matchSymbol_modeSymbol, operandValue_decimal hv]

theorem parseBField_spelled {size v : Nat} (hv : v < size) (labels : Labels) (idx : Nat)
    (op : Opcode) (m : AddrMode) :
    parseBField size labels idx op [[','], [modeSymbol m], decimal v] = .ok (m, v) := by
  simp [parseBField, parseOperand_spelled hv]

theorem decodeLine_spelled {size : Nat} {i : Instr} (hi : i.fitsCore size) (labels : Labels)
    (idx : Nat) : decodeLine size labels idx (tokenize (spell i)) = .ok i := by
  rw [tokenize_spell, operandTokens]
  simp [decodeLine, matchOpcode_opcodeName, parseModifier_modifierName,
    parseOperand_spelled hi.1, parseBField_spelled hi.2]

/-- Pass 1 finds in the spelling one instruction line and no label. -/
theorem firstPass_spell (i : Instr) :
    firstPass [spell i] = ⟨[], [(1, tokenize (spell i))], []⟩ := by
  rw [firstPass, scanLines, scanLines, tokenize_spell]
  simp [scanLine, collectLine]

/-- Settles O57: the spelling is one line, whose tokens decode to the Instruction. -/
theorem canonicalSpellingReassembles : Obligations.CanonicalSpellingReassembles := by
  intro size i hi
  have hline : splitLines (spell i) = [spell i] :=
    splitLines_of_not_mem fun h => (inLine_of_mem_spell h).2 rfl
  simp [assemble, hline, assembleLines, firstPass_spell, secondPass, decodeLine_spelled hi]

end Sys2Proof.Assembly

namespace Sys2Proof.Machine

/-- Settles O28: every instruction is a process step, whose outcome the queue of the player on turn
decides. -/
theorem everyInstructionRunsAtAFrontProcess : Obligations.EveryInstructionRunsAtAFrontProcess := by
  intro i s
  rw [exec_eq_processStep]
  refine ⟨processStep_empty, ?outside, ?front⟩
  case outside => exact fun _ _ => processStep_outOfCore
  case front => exact fun _ _ hfront => ⟨_, processStep_front hfront⟩

end Sys2Proof.Machine

/-! SUPPORT. Proofs of the statements of `40_operands_modifiers.md`: addressing modes (R132 to R136),
the operands of a step (R130, R137, R141), the destination fields (R139) and how an instruction ends
(R140). -/

namespace Sys2Proof.Machine

open Sys2Proof.Spec

/-! ### How an instruction ends (R140) -/

@[simp] theorem State.popped_turn (s : State) (q : List Nat) : (s.popped q).turn = s.turn := rfl

@[simp] theorem State.popped_queue_turn (s : State) (q : List Nat) :
    (s.popped q).queue.get s.turn = q := PerPlayer.get_set_same _ _ _

@[simp] theorem finishStep_queue (i : Instr) (o : Operands) (k : Player) (e : Effect) :
    (finishStep i o k e).queue = e.state.queue := rfl

/-- Executed in `s`, where the stepped process is already popped, the effect enqueues the addresses
`l` for the player on turn. -/
def Effect.Pushes (s : State) (e : Effect) (l : List Nat) : Prop :=
  e.state.queue.get s.turn = s.queue.get s.turn ++ l

theorem killProcess_pushes {s t : State} (w : Option Nat) (hq : t.queue = s.queue) :
    (killProcess w t).Pushes s [] := by
  simp [Effect.Pushes, hq]

theorem continueAt_pushes {s t : State} (w : Option Nat) (a : Nat) (hq : t.queue = s.queue)
    (ht : t.turn = s.turn) : (continueAt w a t).Pushes s [a] := by
  simp [Effect.Pushes, hq, ht]

theorem branchEffect_pushes (taken : Bool) (target : Nat) (o : Operands) (s : State) :
    (branchEffect taken target o s).Pushes s [if taken then target else s.after o.p 1] :=
  continueAt_pushes none _ rfl rfl

theorem forkEffect_pushes (o : Operands) (s : State) :
    (forkEffect o s).Pushes s
      (s.after o.p 1 :: if s.processCount s.turn + 1 < s.cfg.maxProcesses then [o.ps] else []) := by
  rw [forkEffect_eq]
  by_cases hcap : (s.queue.get s.turn).length + 1 < s.cfg.maxProcesses <;>
    simp [Effect.Pushes, State.processCount, State.after, hcap]

/-- The operation computes a value for every field. -/
def NeverSkips (g : FieldOp) : Prop := ∀ size dst src, (g size dst src).isSome

theorem moveOp_neverSkips : NeverSkips moveOp := fun _ _ _ => rfl
theorem addOp_neverSkips : NeverSkips addOp := fun _ _ _ => rfl
theorem subOp_neverSkips : NeverSkips subOp := fun _ _ _ => rfl
theorem mulOp_neverSkips : NeverSkips mulOp := fun _ _ _ => rfl

/-- A data instruction dies if it skips a field, and otherwise continues at `p (+) 1`. -/
theorem dataEffect_pushes (g : FieldOp) (m : Modifier) (o : Operands) (s : State) :
    (dataEffect g m o s).Pushes s
      (if ∃ q ∈ pairs m, pairValue g s.cfg.coreSize o q = none then [] else [s.after o.p 1]) := by
  have hskip : ((pairs m).map (pairValue g s.cfg.coreSize o)).any Option.isNone = true ↔
      ∃ q ∈ pairs m, pairValue g s.cfg.coreSize o q = none := by simp
  rw [dataEffect_eq]
  simp only [hskip]
  split
  · exact killProcess_pushes _ rfl
  · exact continueAt_pushes _ _ rfl rfl

theorem dataEffect_kills_or_continues (g : FieldOp) (m : Modifier) (o : Operands) (s : State) :
    (dataEffect g m o s).Pushes s [] ∨ (dataEffect g m o s).Pushes s [s.after o.p 1] := by
  have hpushes := dataEffect_pushes g m o s
  split at hpushes
  · exact .inl hpushes
  · exact .inr hpushes

theorem dataEffect_pushes_of_neverSkips {g : FieldOp} (hg : NeverSkips g) (m : Modifier)
    (o : Operands) (s : State) : (dataEffect g m o s).Pushes s [s.after o.p 1] := by
  have hpushes := dataEffect_pushes g m o s
  rwa [if_neg] at hpushes
  rintro ⟨q, -, hnone⟩
  exact Option.isSome_iff_ne_none.1 (hg _ _ _) hnone

theorem moveEffect_pushes (m : Modifier) (o : Operands) (s : State) :
    (moveEffect m o s).Pushes s [s.after o.p 1] := by
  cases m with
  | i => exact continueAt_pushes _ _ rfl rfl
  | a | b | ab | ba | f | x => exact dataEffect_pushes_of_neverSkips moveOp_neverSkips _ o s

/-- The number of processes an instruction enqueues, by its opcode. -/
theorem effectOf_pushes (i : Instr) (o : Operands) (s : State) :
    ((effectOf i o s).Pushes s [] ∧ i.op ∈ [.kil, .div, .mod]) ∨
    (∃ a, (effectOf i o s).Pushes s [a] ∧ i.op ≠ .kil) ∨
    ∃ a b, (effectOf i o s).Pushes s [a, b] ∧ i.op = .frk := by
  cases i with
  | kil f => exact .inl ⟨killProcess_pushes none rfl, by simp⟩
  | frk f =>
    have hpushes := forkEffect_pushes o s
    split at hpushes
    · exact .inr (.inr ⟨_, _, hpushes, rfl⟩)
    · exact .inr (.inl ⟨_, hpushes, by simp⟩)
  | nop f | jmp f => exact .inr (.inl ⟨_, continueAt_pushes none _ rfl rfl, by simp⟩)
  | jmz f | jmn f | beq f | bne f | blt f =>
    exact .inr (.inl ⟨_, branchEffect_pushes _ _ o s, by simp⟩)
  | mov f => exact .inr (.inl ⟨_, moveEffect_pushes f.mod o s, by simp⟩)
  | add f => exact .inr (.inl ⟨_, dataEffect_pushes_of_neverSkips addOp_neverSkips _ o s, by simp⟩)
  | sub f => exact .inr (.inl ⟨_, dataEffect_pushes_of_neverSkips subOp_neverSkips _ o s, by simp⟩)
  | mul f => exact .inr (.inl ⟨_, dataEffect_pushes_of_neverSkips mulOp_neverSkips _ o s, by simp⟩)
  | div f =>
    exact (dataEffect_kills_or_continues divOp f.mod o s).imp
      (fun hkill => ⟨hkill, by simp⟩) (fun hcont => .inl ⟨_, hcont, by simp⟩)
  | mod f =>
    exact (dataEffect_kills_or_continues modOp f.mod o s).imp
      (fun hkill => ⟨hkill, by simp⟩) (fun hcont => .inl ⟨_, hcont, by simp⟩)

/-- Settles O30: the effect acts on the popped state, whose queue is `q`. -/
theorem everyInstructionKillsContinuesOrForks :
    Obligations.EveryInstructionKillsContinuesOrForks := by
  intro i s t p q hfront hexec
  rw [exec_eq_processStep, processStep_front hfront] at hexec
  obtain rfl := Host.Outcome.next.inj hexec
  have hpushes := effectOf_pushes i (operandsOf i.fields p s) (s.popped q)
  simpa only [Effect.Pushes, State.popped_turn, State.popped_queue_turn, finishStep_queue,
    List.append_nil] using hpushes

/-! ### Addressing modes (R132 to R136) -/

theorem wrap_natCast (size a n : Nat) : wrap size a n = (a + n) % size := by
  rw [wrap, ← Int.natCast_add, fmod_natCast]

/-- The address the second displacement of an indirect operand is counted from (R135). -/
def displacementBase (base : IndirectBase) (p t : Nat) : Nat :=
  match base with
  | .intermediate => t
  | .executing => p

theorem indirect_eq (cfg : Config) (p t disp : Nat) :
    indirect cfg p t disp = (displacementBase cfg.indirectBase p t + disp) % cfg.coreSize := by
  unfold indirect
  cases cfg.indirectBase with
  | intermediate | executing => exact wrap_natCast _ _ _

section
variable (cfg : Config) (core : List Cell) (p v : Nat)

theorem resolve_dir : resolve cfg core p .dir v = ((p + v) % cfg.coreSize, []) := by
  rw [resolve, wrap_natCast]

theorem resolve_ain : resolve cfg core p .ain v =
    let t := (p + v) % cfg.coreSize
    ((displacementBase cfg.indirectBase p t + av (coreRead core t)) % cfg.coreSize, [t]) := by
  simp only [resolve, wrap_natCast, indirect_eq, readField]

theorem resolve_bin : resolve cfg core p .bin v =
    let t := (p + v) % cfg.coreSize
    ((displacementBase cfg.indirectBase p t + bv (coreRead core t)) % cfg.coreSize, [t]) := by
  simp only [resolve, wrap_natCast, indirect_eq, readField]

end

/-- Settles O10: the value of each mode is a lemma above, with the base spelled out by definition. -/
theorem resolveFollowsTheFourModes : Obligations.ResolveFollowsTheFourModes := by
  intro cfg core p v hp
  refine ⟨rfl, resolve_dir cfg core p v, ⟨?ain, ?bin⟩, fun mode => resolve_lt cfg core hp mode v⟩
  case ain => exact resolve_ain cfg core p v
  case bin => exact resolve_bin cfg core p v

/-! ### Address sets (R141, log 14) -/

theorem mem_insertAddr {a b : Nat} {l : List Nat} : b ∈ insertAddr a l ↔ b = a ∨ b ∈ l := by
  induction l with
  | nil => simp [insertAddr]
  | cons c l ih =>
    unfold insertAddr
    split
    · exact List.mem_cons
    · split
      · next heq => simp [heq]
      · rw [List.mem_cons, ih, List.mem_cons, or_left_comm]

theorem insertAddr_rising (a : Nat) {l : List Nat} (h : l.Pairwise (· < ·)) :
    (insertAddr a l).Pairwise (· < ·) := by
  induction l with
  | nil => simp [insertAddr]
  | cons c l ih =>
    obtain ⟨hc, hl⟩ := List.pairwise_cons.1 h
    unfold insertAddr
    split
    · next hac =>
      refine List.pairwise_cons.2 ⟨fun b hb => ?_, h⟩
      rcases List.mem_cons.1 hb with rfl | hb
      · exact hac
      · exact hac.trans (hc b hb)
    · split
      · exact h
      · refine List.pairwise_cons.2 ⟨fun b hb => ?_, ih hl⟩
        rcases mem_insertAddr.1 hb with rfl | hb
        · omega
        · exact hc b hb

@[simp] theorem mem_addrSet {a : Nat} {l : List Nat} : a ∈ addrSet l ↔ a ∈ l := by
  induction l with
  | nil => rfl
  | cons b l ih => rw [addrSet, List.foldr_cons, mem_insertAddr, ← addrSet, ih, List.mem_cons]

theorem addrSet_rising (l : List Nat) : (addrSet l).Pairwise (· < ·) := by
  induction l with
  | nil => exact List.Pairwise.nil
  | cons b l ih => exact insertAddr_rising b ih

/-! ### The operands and the destination fields of a step (R130, R137, R139) -/

theorem operandsOf_reads (f : Fields) (p : Nat) (s : State) :
    (operandsOf f p s).reads =
      addrSet ((resolve s.cfg s.core p f.aMode f.aVal).2 ++
        [(resolve s.cfg s.core p f.aMode f.aVal).1] ++
        (resolve s.cfg s.core p f.bMode f.bVal).2 ++
        [(resolve s.cfg s.core p f.bMode f.bVal).1]) := rfl

/-- Settles O11: the addresses and copies are those `operandsOf` names; `reads` is a set as a rising
list. -/
theorem operandsAreResolvedCopiedAndReported :
    Obligations.OperandsAreResolvedCopiedAndReported := by
  intro f p s
  refine ⟨rfl, rfl, rfl, rfl, rfl, addrSet_rising _, fun a => ?_⟩
  rw [operandsOf_reads, mem_addrSet]
  simp only [List.mem_append, List.mem_singleton, or_assoc]

/-- Settles O12: `F`, `X` and `I` name both fields, so that each field is one of theirs. -/
theorem destinationFieldsTable : Obligations.DestinationFieldsTable := by
  refine ⟨rfl, rfl, rfl, rfl, fun d => ?_⟩
  cases d with
  | aVal | bVal => decide

end Sys2Proof.Machine

/-! SUPPORT. Proofs of the statements of `41_process_control.md`: `KIL` (R160), `FRK` (R161) and
`NOP` (R162). -/

namespace Sys2Proof.Machine

open Sys2Proof.Spec

/-! ### A completed step, from the effect of its instruction (R141) -/

section
variable {i : Instr} {s : State} {p : Nat} {q l : List Nat} {w : Option Nat} {event : Event}

/-- The end of a process step whose effect wrote `m` and pushed `l`: the step report counts the
processes pushed, and nothing but the core, and the queue and report of the player on turn, is
replaced. -/
theorem finishStep_isStepped {e : Effect} {m : List Cell}
    (he : e.state = (s.popped q).written m l) :
    Stepped i s p q l e.written e.event (finishStep i (operandsOf i.fields p s) s.turn e) := by
  have hcount : e.state.processCount s.turn = (q ++ l).length := by
    simp [he, State.written, State.processCount]
  rw [finishStep_written he, stepReport, hcount]
  exact ⟨rfl, rfl, rfl, rfl, rfl, rfl, rfl, PerPlayer.get_set_same _ _ _,
    PerPlayer.get_set_other _ _ _, PerPlayer.get_set_other _ _ _, PerPlayer.get_set_same _ _ _⟩

/-- At a front process an instruction whose effect writes the core `m` and pushes `l` completes with
that core and those processes. -/
theorem exec_completes {m : List Cell} (hfront : s.Front s.turn p q)
    (he : effectOf i (operandsOf i.fields p s) (s.popped q) =
      ⟨(s.popped q).written m l, w, event⟩) :
    ∃ t, exec i s = .next t ∧ t.core = m ∧ Stepped i s p q l w event t := by
  refine ⟨_, exec_eq_next.2 ⟨p, q, hfront, rfl⟩, ?_⟩
  rw [he]
  exact ⟨rfl, finishStep_isStepped rfl⟩

/-- At a front process an instruction whose effect only pushes `l` completes with every cell as
before. -/
theorem exec_completes_sameCore (hfront : s.Front s.turn p q)
    (he : effectOf i (operandsOf i.fields p s) (s.popped q) =
      ⟨(s.popped q).written s.core l, w, event⟩) :
    ∃ t, exec i s = .next t ∧ SameCore s t ∧ Stepped i s p q l w event t := by
  obtain ⟨t, hexec, hcore, hstepped⟩ := exec_completes hfront he
  exact ⟨t, hexec, fun a => congrArg (coreRead · a) hcore, hstepped⟩

end

/-! ### What the ends of an instruction push (R140) -/

section
variable (w : Option Nat) (a : Nat) (o : Operands) (s : State)

theorem killProcess_eq_written : killProcess w s = ⟨s.written s.core [], w, .killed⟩ := by
  simp [killProcess, State.written, PerPlayer.set_get]

theorem continueAt_eq_written : continueAt w a s = ⟨s.written s.core [a], w, .none⟩ := rfl

variable {o s}

/-- Below the cap, the continuation counted, `FRK` pushes the child behind the continuation. -/
theorem forkEffect_below_cap (hcap : s.processCount s.turn + 1 < s.cfg.maxProcesses) :
    forkEffect o s = ⟨s.written s.core [s.after o.p 1, o.ps], none, .forked⟩ := by
  rw [forkEffect_eq]
  refine (if_pos hcap).trans ?_
  simp [State.written, State.pushBack, State.after]

theorem forkEffect_at_cap (hcap : s.cfg.maxProcesses ≤ s.processCount s.turn + 1) :
    forkEffect o s = ⟨s.written s.core [s.after o.p 1], none, .forkDropped⟩ := by
  rw [forkEffect_eq]
  exact if_neg (Nat.not_lt.2 hcap)

end

@[simp] theorem State.popped_processCount_turn (s : State) (q : List Nat) :
    (s.popped q).processCount s.turn = q.length :=
  congrArg List.length (s.popped_queue_turn q)

/-! ### The instructions -/

/-- Settles O13: `KIL` pushes no process. -/
theorem kilEndsTheProcess : Obligations.KilEndsTheProcess :=
  fun _ _ _ _ hfront => exec_completes_sameCore hfront (killProcess_eq_written none _)

/-- Settles O14: with `q` behind the stepped process, `q.length + 1` processes live once the
continuation is enqueued; that count decides on the child. -/
theorem frkStartsAProcessBelowTheCap : Obligations.FrkStartsAProcessBelowTheCap := by
  intro f s p q hfront
  have hcount := s.popped_processCount_turn q
  rcases Nat.lt_or_ge (q.length + 1) s.cfg.maxProcesses with hbelow | hfull
  · have heffect := forkEffect_below_cap (o := operandsOf f p s) (s := s.popped q)
      (by rwa [State.popped_turn, hcount])
    obtain ⟨t, hexec, hcore, hstepped⟩ := exec_completes_sameCore (i := .frk f) hfront heffect
    exact ⟨t, hexec, hcore, fun _ => hstepped, fun h => absurd hbelow (Nat.not_lt.2 h)⟩
  · have heffect := forkEffect_at_cap (o := operandsOf f p s) (s := s.popped q)
      (by rwa [State.popped_turn, hcount])
    obtain ⟨t, hexec, hcore, hstepped⟩ := exec_completes_sameCore (i := .frk f) hfront heffect
    exact ⟨t, hexec, hcore, fun h => absurd h (Nat.not_lt.2 hfull), fun _ => hstepped⟩

/-- Settles O15: `NOP` pushes the continuation alone. -/
theorem nopContinuesAtTheNextCell : Obligations.NopContinuesAtTheNextCell :=
  fun _ _ _ _ hfront => exec_completes_sameCore hfront (continueAt_eq_written none _ _)

end Sys2Proof.Machine

/-! SUPPORT. Proofs of the statements of `42_data_arithmetic.md`: `MOV` (R171), `ADD` (R172), `SUB`
(R173), `MUL` (R174), `DIV` (R175) and `MOD` (R176). -/

namespace Sys2Proof.Machine

open Sys2Proof.Spec

/-! ### The destination cell by modifier (R138, R170) -/

theorem setField_readField (c : Instr) (d : Field) : setField c d (readField c d) = c := by
  cases d with
  | aVal | bVal => exact Instr.instr_op_fields c

/-- The operation gives `value` for a pair, and leaves the left operand where it is skipped. -/
def FieldOp.Gives (g : FieldOp) (size : Nat) (value : Nat → Nat → Nat) : Prop :=
  ∀ dst src, (g size dst src).getD dst = value dst src

section
variable {g : FieldOp} {size : Nat} {value : Nat → Nat → Nat} {o : Operands}

/-- A pair writes `value` to a destination field that the pairs before it left alone. -/
theorem updatedCell_cons (hg : g.Gives size value) {q : Field × Field} (l : List (Field × Field))
    {c : Instr} (hc : readField c q.2 = readField o.dst q.2) :
    updatedCell g size o (q :: l) c = updatedCell g size o l
      (setField c q.2 (value (readField o.dst q.2) (readField o.src q.1))) := by
  have hvalue := hg (readField o.dst q.2) (readField o.src q.1)
  rw [← hvalue, updatedCell, pairValue]
  cases g size (readField o.dst q.2) (readField o.src q.1) with
  | some v => rfl
  | none => rw [Option.getD_none, ← hc, setField_readField]

/-- Both destination fields written from the destination copy, in either order. -/
theorem updatedCell_pair (hg : g.Gives size value) {a b d e : Field} (hne : e ≠ d) :
    updatedCell g size o [(a, d), (b, e)] o.dst =
      setField (setField o.dst d (value (readField o.dst d) (readField o.src a)))
        e (value (readField o.dst e) (readField o.src b)) := by
  rw [updatedCell_cons hg _ rfl, updatedCell_cons hg _ (readField_setField_ne _ hne _), updatedCell]

/-- The pairs of a modifier change the destination copy as R138's table says. -/
theorem updatedCell_pairs (hg : g.Gives size value) (m : Modifier) :
    updatedCell g size o (pairs m) o.dst = combine value m o.src o.dst := by
  cases m with
  | a | b | ab | ba => exact updatedCell_cons hg [] rfl
  | f | x | i =>
    refine (updatedCell_pair hg (by decide)).trans ?_
    simp [setField, combine, withValues, readField]

end

/-! ### The end of a data instruction (R170, R175) -/

/-- Under modifier `m` the operation skips a destination field. -/
abbrev FieldOp.Skips (g : FieldOp) (size : Nat) (m : Modifier) (o : Operands) : Prop :=
  ∃ q ∈ pairs m, pairValue g size o q = none

/-- Under modifier `m` the operation writes a destination field. -/
abbrev FieldOp.Writes (g : FieldOp) (size : Nat) (m : Modifier) (o : Operands) : Prop :=
  ∃ q ∈ pairs m, pairValue g size o q ≠ none

/-- The effect of a data instruction, with its tests as propositions on the selected fields. -/
theorem dataEffect_eq_written (g : FieldOp) (m : Modifier) (o : Operands) (s : State) :
    dataEffect g m o s =
      ⟨s.written (writePairs g s.cfg.coreSize o (pairs m) s).core
          (if g.Skips s.cfg.coreSize m o then [] else [s.after o.p 1]),
        if g.Writes s.cfg.coreSize m o then some o.pd else none,
        if g.Skips s.cfg.coreSize m o then .killed else .none⟩ := by
  have hskips : ((pairs m).map (pairValue g s.cfg.coreSize o)).any Option.isNone = true ↔
      g.Skips s.cfg.coreSize m o := by simp
  have hwrites : ((pairs m).map (pairValue g s.cfg.coreSize o)).any Option.isSome = true ↔
      g.Writes s.cfg.coreSize m o := by
    simp [Option.isSome_iff_ne_none]
  rw [dataEffect_eq]
  simp only [hskips, hwrites]
  split
  · exact killProcess_eq_written _ _
  · rfl

section
variable {i : Instr} {s : State} {p : Nat} {q : List Nat}

/-- At a front process an instruction whose effect writes the core and pushes `l` completes with the
cells of its effect. -/
theorem exec_completes_onlyCell {l : List Nat} {w : Option Nat} {event : Event} {m : List Cell}
    {a : Nat} {c : Instr} (hfront : s.Front s.turn p q)
    (he : effectOf i (operandsOf i.fields p s) (s.popped q) =
      ⟨(s.popped q).written m l, w, event⟩)
    (hcell : OnlyCell s (effectOf i (operandsOf i.fields p s) (s.popped q)).state a c) :
    ∃ t, exec i s = .next t ∧ OnlyCell s t a c ∧ Stepped i s p q l w event t := by
  obtain ⟨t, hexec, hcore, hstepped⟩ := exec_completes hfront he
  exact ⟨t, hexec, hcell.of_core_eq (hcore.trans (by rw [he]; rfl)), hstepped⟩

variable {g : FieldOp} {value : Nat → Nat → Nat}

/-- A data instruction at a front process completes: the selected fields of the cell `pd` become
`value`, and the fields skipped or written decide how the process ends. -/
theorem exec_dataEffect (hg : g.Gives s.cfg.coreSize value) (hfront : s.Front s.turn p q)
    (hi : effectOf i = dataEffect g i.fields.mod) :
    let o := operandsOf i.fields p s
    ∃ t, exec i s = .next t ∧ OnlyCell s t o.pd (combine value i.fields.mod o.src o.dst) ∧
      Stepped i s p q
        (if g.Skips s.cfg.coreSize i.fields.mod o then [] else [plus s p 1])
        (if g.Writes s.cfg.coreSize i.fields.mod o then some o.pd else none)
        (if g.Skips s.cfg.coreSize i.fields.mod o then .killed else .none) t := by
  intro o
  have hcell : OnlyCell s (dataEffect g i.fields.mod o (s.popped q)).state o.pd
      (combine value i.fields.mod o.src o.dst) := by
    rw [← updatedCell_pairs hg]
    exact dataEffect_onlyCell g i.fields.mod o (s.popped q)
  have heffect := dataEffect_eq_written g i.fields.mod o (s.popped q)
  rw [← hi] at hcell heffect
  exact exec_completes_onlyCell hfront heffect hcell

end

/-! ### Operations that never skip, and operations that skip a zero divisor (R172 to R176) -/

theorem NeverSkips.not_skips {g : FieldOp} (hg : NeverSkips g) (size : Nat) (m : Modifier)
    (o : Operands) : ¬ g.Skips size m o := by
  rintro ⟨q, -, hnone⟩
  exact Option.isSome_iff_ne_none.1 (hg _ _ _) hnone

theorem pairs_ne_nil (m : Modifier) : pairs m ≠ [] := by
  cases m <;> decide

/-- Every modifier selects a field, which is skipped or written. -/
theorem writes_of_not_skips {g : FieldOp} {size : Nat} {m : Modifier} {o : Operands}
    (h : ¬ g.Skips size m o) : g.Writes size m o := by
  obtain ⟨q, hq⟩ := List.exists_mem_of_ne_nil _ (pairs_ne_nil m)
  exact ⟨q, hq, fun hnone => h ⟨q, hq, hnone⟩⟩

/-- The operation skips a field exactly where the divisor is zero. -/
def SkipsZeroDivisors (g : FieldOp) : Prop := ∀ size dst src, g size dst src = none ↔ src = 0

theorem divOp_skipsZeroDivisors : SkipsZeroDivisors divOp := by
  intro size dst src
  by_cases h : src = 0 <;> simp [divOp, h]

theorem modOp_skipsZeroDivisors : SkipsZeroDivisors modOp := by
  intro size dst src
  by_cases h : src = 0 <;> simp [modOp, h]

theorem zeroDivisor_iff (m : Modifier) (src : Instr) :
    ZeroDivisor m src ↔ ∃ q ∈ pairs m, readField src q.1 = 0 := by
  cases m with
  | a | b | ab | ba | f | x | i => simp [ZeroDivisor, pairs, readField]

theorem onlyZeroDivisors_iff (m : Modifier) (src : Instr) :
    OnlyZeroDivisors m src ↔ ∀ q ∈ pairs m, readField src q.1 = 0 := by
  cases m with
  | a | b | ab | ba | f | x | i => simp [OnlyZeroDivisors, pairs, readField]

theorem zeroDivisor_of_onlyZeroDivisors {m : Modifier} {src : Instr}
    (h : OnlyZeroDivisors m src) : ZeroDivisor m src := by
  obtain ⟨q, hq⟩ := List.exists_mem_of_ne_nil _ (pairs_ne_nil m)
  exact (zeroDivisor_iff m src).2 ⟨q, hq, (onlyZeroDivisors_iff m src).1 h q hq⟩

section
variable {g : FieldOp} (hg : SkipsZeroDivisors g) (size : Nat) (m : Modifier) (o : Operands)
include hg

theorem SkipsZeroDivisors.skips_iff : g.Skips size m o ↔ ZeroDivisor m o.src := by
  simp only [FieldOp.Skips, pairValue, hg _ _ _, zeroDivisor_iff]

theorem SkipsZeroDivisors.writes_iff : g.Writes size m o ↔ ¬ OnlyZeroDivisors m o.src := by
  simp only [FieldOp.Writes, pairValue, ne_eq, hg _ _ _, onlyZeroDivisors_iff, not_forall,
    exists_prop]

end

section
variable {i : Instr} {s : State} {p : Nat} {q : List Nat} {g : FieldOp} {value : Nat → Nat → Nat}

/-- A data instruction that skips no field continues at `p (+) 1` with `pd` written. -/
theorem exec_dataEffect_of_neverSkips (hg : g.Gives s.cfg.coreSize value) (hnever : NeverSkips g)
    (hfront : s.Front s.turn p q) (hi : effectOf i = dataEffect g i.fields.mod) :
    let o := operandsOf i.fields p s
    ∃ t, exec i s = .next t ∧ OnlyCell s t o.pd (combine value i.fields.mod o.src o.dst) ∧
      Stepped i s p q [plus s p 1] (some o.pd) .none t := by
  intro o
  have hskips := hnever.not_skips s.cfg.coreSize i.fields.mod o
  obtain ⟨t, hexec, hcell, hstepped⟩ := exec_dataEffect hg hfront hi
  rw [if_neg hskips, if_pos (writes_of_not_skips hskips), if_neg hskips] at hstepped
  exact ⟨t, hexec, hcell, hstepped⟩

/-- A data instruction that skips zero divisors is killed by one, and writes nothing if every
selected divisor is zero (R175). -/
theorem exec_dataEffect_of_skipsZeroDivisors (hg : g.Gives s.cfg.coreSize value)
    (hzero : SkipsZeroDivisors g) (hfront : s.Front s.turn p q)
    (hi : effectOf i = dataEffect g i.fields.mod) :
    let o := operandsOf i.fields p s
    ∃ t, exec i s = .next t ∧ OnlyCell s t o.pd (combine value i.fields.mod o.src o.dst) ∧
      (¬ ZeroDivisor i.fields.mod o.src → Stepped i s p q [plus s p 1] (some o.pd) .none t) ∧
      (ZeroDivisor i.fields.mod o.src → ¬ OnlyZeroDivisors i.fields.mod o.src →
        Stepped i s p q [] (some o.pd) .killed t) ∧
      (OnlyZeroDivisors i.fields.mod o.src → Stepped i s p q [] none .killed t) := by
  intro o
  have hskips := hzero.skips_iff s.cfg.coreSize i.fields.mod o
  have hwrites := hzero.writes_iff s.cfg.coreSize i.fields.mod o
  obtain ⟨t, hexec, hcell, hstepped⟩ := exec_dataEffect hg hfront hi
  refine ⟨t, hexec, hcell, fun hnone => ?_, fun hsome hother => ?_, fun hall => ?_⟩
  · have hskip := mt hskips.1 hnone
    rwa [if_neg hskip, if_pos (writes_of_not_skips hskip), if_neg hskip] at hstepped
  · have hskip := hskips.2 hsome
    rwa [if_pos hskip, if_pos (hwrites.2 hother), if_pos hskip] at hstepped
  · have hskip := hskips.2 (zeroDivisor_of_onlyZeroDivisors hall)
    rwa [if_pos hskip, if_neg fun h => hwrites.1 h hall, if_pos hskip] at hstepped

end

/-! ### The value of each operation (R171 to R176) -/

theorem moveOp_gives (size : Nat) : moveOp.Gives size fun _ src => src := fun _ _ => rfl

theorem addOp_gives (size : Nat) : addOp.Gives size fun dst src => (dst + src) % size := by
  intro dst src
  rw [addOp, Option.getD_some, ← Int.natCast_add, fmod_natCast]

theorem subOp_gives (size : Nat) :
    subOp.Gives size fun dst src => fmod ((size : Int) + dst - src) size := fun _ _ => rfl

theorem mulOp_gives (size : Nat) : mulOp.Gives size fun dst src => dst * src % size := by
  intro dst src
  rw [mulOp, Option.getD_some, ← Int.natCast_mul, fmod_natCast]

theorem divOp_gives (size : Nat) :
    divOp.Gives size fun dst src => if src = 0 then dst else dst / src := by
  intro dst src
  by_cases h : src = 0 <;> simp [divOp, h]

theorem modOp_gives (size : Nat) :
    modOp.Gives size fun dst src => if src = 0 then dst else dst - src * (dst / src) := by
  intro dst src
  by_cases h : src = 0 <;> simp [modOp, h]

/-! ### The instructions -/

theorem moveEffect_of_ne_i {m : Modifier} (hm : m ≠ .i) :
    moveEffect m = dataEffect moveOp m := by
  cases m with
  | i => exact absurd rfl hm
  | a | b | ab | ba | f | x => rfl

/-- `MOV.I` writes the source copy whole and continues at `p (+) 1`. -/
theorem moveEffect_i_eq_written (o : Operands) (s : State) :
    moveEffect .i o s =
      ⟨s.written (coreWrite s.core o.pd o.src) [s.after o.p 1], some o.pd, .none⟩ := rfl

/-- Settles O16: `.I` writes one whole cell; the other modifiers make `MOV` a data instruction that
never skips. -/
theorem movCopiesTheSelectedFields : Obligations.MovCopiesTheSelectedFields := by
  intro f s p q hfront o
  by_cases hm : f.mod = .i
  · have heffect := moveEffect_i_eq_written o (s.popped q)
    rw [← hm] at heffect
    have hcell : OnlyCell s (moveEffect f.mod o (s.popped q)).state o.pd o.src := by
      rw [heffect]
      exact onlyCell_writeCell s o.pd o.src
    rw [if_pos hm]
    exact exec_completes_onlyCell hfront heffect hcell
  · rw [if_neg hm]
    exact exec_dataEffect_of_neverSkips (i := .mov f) (moveOp_gives _) moveOp_neverSkips hfront
      (moveEffect_of_ne_i hm)

/-- Settles O17: the natural sum modulo `S` is the integer `fmod`. -/
theorem addWritesTheSumModuloTheCoreSize : Obligations.AddWritesTheSumModuloTheCoreSize :=
  fun f _ _ _ hfront => exec_dataEffect_of_neverSkips (i := .add f) (addOp_gives _)
    addOp_neverSkips hfront rfl

/-- Settles O18: the difference is `subOp`'s own formula. -/
theorem subWritesTheDifferenceModuloTheCoreSize :
    Obligations.SubWritesTheDifferenceModuloTheCoreSize :=
  fun f _ _ _ hfront => exec_dataEffect_of_neverSkips (i := .sub f) (subOp_gives _)
    subOp_neverSkips hfront rfl

/-- Settles O19: the exact natural product modulo `S` is the integer `fmod`. -/
theorem mulWritesTheProductModuloTheCoreSize : Obligations.MulWritesTheProductModuloTheCoreSize :=
  fun f _ _ _ hfront => exec_dataEffect_of_neverSkips (i := .mul f) (mulOp_gives _)
    mulOp_neverSkips hfront rfl

/-- Settles O20: a zero divisor leaves its field, and the selected divisors decide how the process
ends. -/
theorem divWritesTheQuotientOrKills : Obligations.DivWritesTheQuotientOrKills :=
  fun f _ _ _ hfront => exec_dataEffect_of_skipsZeroDivisors (i := .div f) (divOp_gives _)
    divOp_skipsZeroDivisors hfront rfl

/-- Settles O21: as `DIV`, with the remainder `dst - src * (dst / src)`. -/
theorem modWritesTheRemainderOrKills : Obligations.ModWritesTheRemainderOrKills :=
  fun f _ _ _ hfront => exec_dataEffect_of_skipsZeroDivisors (i := .mod f) (modOp_gives _)
    modOp_skipsZeroDivisors hfront rfl

end Sys2Proof.Machine

/-! SUPPORT. Proofs of the statements of `43_control_transfer.md`: `JMP` (R191), `JMZ` (R193), `JMN`
(R194), `BEQ` (R196), `BNE` (R197) and `BLT` (R198). -/

namespace Sys2Proof.Machine

open Sys2Proof.Spec

/-! ### The tests by modifier (R139, R195, R198) -/

section
variable (m : Modifier) (src dst : Instr)

/-- A condition on the destination fields of a modifier, as R139's table spells it out. -/
theorem forall_dstFields_iff (P : Nat → Prop) :
    (∀ d ∈ dstFields m, P (readField dst d)) ↔ EveryField P m dst := by
  cases m with
  | a | b | ab | ba => exact List.forall_mem_singleton
  | f | x | i => simp [dstFields, pairs, readField, EveryField, and_comm]

theorem allZero_iff_everyField : allZero m dst = true ↔ EveryField (· = 0) m dst :=
  (allZero_iff m dst).trans (forall_dstFields_iff m dst (· = 0))

theorem allNonZero_iff_everyField : allNonZero m dst = true ↔ EveryField (· ≠ 0) m dst :=
  (allNonZero_iff m dst).trans (forall_dstFields_iff m dst (· ≠ 0))

/-- `.I` compares whole Instructions, every other modifier its pairs of fields. -/
theorem equalOperands_iff_equal : equalOperands m src dst = true ↔ Equal m src dst := by
  cases m with
  | i => exact equalOperands_whole src dst
  | a | b | ab | ba =>
    exact (equalOperands_fields (by decide) src dst).trans List.forall_mem_singleton
  | f | x =>
    refine (equalOperands_fields (by decide) src dst).trans ?_
    simp [pairs, readField, Equal]

theorem allGreater_iff_greater : allGreater m src dst = true ↔ Greater m src dst := by
  rw [allGreater_iff]
  cases m with
  | a | b | ab | ba => exact List.forall_mem_singleton
  | f | x | i => simp [pairs, readField, Greater]

end

/-! ### The end of a control transfer (R190) -/

section
variable {i : Instr} {s : State} {p : Nat} {q : List Nat}

/-- A conditional control transfer at a front process completes: it writes nothing and continues at
`target` if the condition its test decides holds, else at `p (+) 1`. -/
theorem exec_branchEffect {taken : Bool} {P : Prop} (htaken : taken = true ↔ P) {target : Nat}
    (hfront : s.Front s.turn p q)
    (he : effectOf i (operandsOf i.fields p s) (s.popped q) =
      branchEffect taken target (operandsOf i.fields p s) (s.popped q)) :
    ∃ t, exec i s = .next t ∧ SameCore s t ∧
      (P → Stepped i s p q [target] none .none t) ∧
      (¬ P → Stepped i s p q [plus s p 1] none .none t) := by
  obtain ⟨t, hexec, hcore, hstepped⟩ :=
    exec_completes_sameCore hfront (he.trans (continueAt_eq_written none _ _))
  refine ⟨t, hexec, hcore, fun hP => ?taken, fun hP => ?notTaken⟩
  case taken => rwa [if_pos (htaken.2 hP)] at hstepped
  case notTaken => rwa [if_neg (mt htaken.1 hP)] at hstepped

end

/-! ### The instructions -/

/-- Settles O22: `JMP` pushes the source address alone. -/
theorem jmpContinuesAtTheSourceAddress : Obligations.JmpContinuesAtTheSourceAddress :=
  fun _ _ _ _ hfront => exec_completes_sameCore hfront (continueAt_eq_written none _ _)

/-- Settles O23: `JMZ` branches to the source address on its all-zero test. -/
theorem jmzJumpsWhenAllSelectedFieldsAreZero : Obligations.JmzJumpsWhenAllSelectedFieldsAreZero :=
  fun f _ _ _ hfront =>
    exec_branchEffect (i := .jmz f) (allZero_iff_everyField f.mod _) hfront rfl

/-- Settles O24: `JMN` branches to the source address on its own test, not the negated test of
`JMZ`. -/
theorem jmnJumpsWhenAllSelectedFieldsAreNonZero :
    Obligations.JmnJumpsWhenAllSelectedFieldsAreNonZero :=
  fun f _ _ _ hfront =>
    exec_branchEffect (i := .jmn f) (allNonZero_iff_everyField f.mod _) hfront rfl

/-- Settles O25: `BEQ` branches over the next cell on the equality test. -/
theorem beqSkipsWhenEqual : Obligations.BeqSkipsWhenEqual :=
  fun f _ _ _ hfront =>
    exec_branchEffect (i := .beq f) (equalOperands_iff_equal f.mod _ _) hfront rfl

/-- Settles O26: `BNE` branches over the next cell on the negated equality test, so that equal
operands are where its branch is not taken. -/
theorem bneSkipsWhenNotEqual : Obligations.BneSkipsWhenNotEqual := by
  intro f s p q hfront o
  have htest : (!equalOperands f.mod o.src o.dst) = true ↔ ¬ Equal f.mod o.src o.dst := by
    rw [Bool.not_eq_true', ← Bool.not_eq_true, equalOperands_iff_equal]
  obtain ⟨t, hexec, hcore, hskip, hcontinue⟩ := exec_branchEffect (i := .bne f) htest hfront rfl
  exact ⟨t, hexec, hcore, fun heq => hcontinue (not_not_intro heq), hskip⟩

/-- Settles O27: `BLT` branches over the next cell on its greater-than test. -/
theorem bltSkipsWhenTheDestinationIsGreater : Obligations.BltSkipsWhenTheDestinationIsGreater :=
  fun f _ _ _ hfront =>
    exec_branchEffect (i := .blt f) (allGreater_iff_greater f.mod _ _) hfront rfl

end Sys2Proof.Machine

/-! SUPPORT. Proofs of the statements of `44_host_commands_scheduler.md`: the loads (R211, R212), the
other commands (R213 to R216), and the cycles and the end of a round (R220 to R226). -/

namespace Sys2Proof.Assembly

/-! ### The values of an assembled Instruction lie in the core (R259, R260) -/

section
variable {size idx v : Nat} {labels : Labels} {m : AddrMode}

theorem operandValue_lt (hsize : 0 < size) {t : Token}
    (h : operandValue size labels idx m t = .ok v) : v < size := by
  unfold operandValue at h
  split at h
  · cases h
    exact Machine.fmod_lt _ hsize
  split at h
  · split at h
    · cases h
    split at h
    · cases h
      exact Machine.fmod_lt _ hsize
    · cases h
  · cases h

theorem parseOperand_lt (hsize : 0 < size) {tokens rest : List Token}
    (h : parseOperand size labels idx tokens = .ok (m, v, rest)) : v < size := by
  unfold parseOperand at h
  split at h
  · cases h
  split at h
  · cases h
  · rename_i hvalue
    cases h
    exact operandValue_lt hsize hvalue

/-- An omitted B-field has the value 0. -/
theorem parseBField_lt (hsize : 0 < size) {op : Opcode} {tokens : List Token}
    (h : parseBField size labels idx op tokens = .ok (m, v)) : v < size := by
  unfold parseBField at h
  split at h
  · split at h
    · cases h
      exact hsize
    · cases h
  · split at h
    · cases h
    · rename_i hoperand
      cases h
      exact parseOperand_lt hsize hoperand
    · cases h
  · cases h

theorem decodeLine_fitsCore (hsize : 0 < size) {tokens : List Token} {i : Instr}
    (h : decodeLine size labels idx tokens = .ok i) : i.fitsCore size := by
  unfold decodeLine at h
  split at h
  · cases h
  split at h
  · cases h
  split at h
  · cases h
  split at h
  · cases h
  rename_i haField
  split at h
  · cases h
  rename_i hbField
  cases h
  rw [Instr.fitsCore, Machine.Instr.fields_instr]
  exact ⟨parseOperand_lt hsize haField, parseBField_lt hsize hbField⟩

theorem fitsCore_of_mem_secondPass (hsize : 0 < size) {lines : List (Nat × List Token)} {i : Instr}
    (h : i ∈ (secondPass size labels idx lines).1) : i.fitsCore size := by
  induction lines generalizing idx with
  | nil => cases h
  | cons line lines ih =>
    rw [secondPass] at h
    split at h
    · rename_i hline
      rcases List.mem_cons.1 h with rfl | hrest
      · exact decodeLine_fitsCore hsize hline
      · exact ih hrest
    · exact ih h

end

theorem assemble_fitsCore {size : Nat} (hsize : 0 < size) {text : List Char} {program : List Instr}
    (h : assemble size text = .ok program) {i : Instr} (hi : i ∈ program) : i.fitsCore size := by
  unfold assemble assembleLines at h
  dsimp only at h
  split at h
  · cases h
    exact fitsCore_of_mem_secondPass hsize hi
  · cases h

/-! ### Loading the written records (R212, R265) -/

/-- The reader reads back every program whose values fit their record fields. -/
theorem decodeProgram_encodeProgram {is : List Instr} (h : ∀ i ∈ is, i.encodable) :
    decodeProgram (encodeProgram is) = is := by
  induction is with
  | nil => rfl
  | cons i is ih =>
    obtain ⟨hi, his⟩ := List.forall_mem_cons.1 h
    calc decodeProgram (encodeProgram (i :: is))
        = i :: decodeProgram (encodeProgram is) := decodeProgram_encode_append hi _
      _ = i :: is := by rw [ih his]

/-- Settles O6: a value of the core fits a record field (R6), so that the reader reads back what the
writer wrote for an assembled program. -/
theorem binaryLoadEqualsListLoad : Obligations.BinaryLoadEqualsListLoad := by
  refine ⟨fun _ _ _ _ => rfl, fun text program offset k s hok => ?_⟩
  have hencodable : ∀ i ∈ program, i.encodable := by
    intro i hi
    obtain ⟨ha, hb⟩ := assemble_fitsCore s.cfg.coreSize_pos hok hi
    exact ⟨ha.trans_le s.cfg.coreSize_le, hb.trans_le s.cfg.coreSize_le⟩
  have hread := decodeProgram_encodeProgram hencodable
  exact ⟨encodeProgram program, by rw [hok, toFile], hread, by rw [Machine.loadBinary, hread]⟩

end Sys2Proof.Assembly

namespace Sys2Proof.Machine

open Sys2Proof.Spec

/-! ### What a turn leaves (R221 to R223) -/

section
variable (s : State) (k : Player) (m : List Cell) (q : List Nat) (r : Report)

@[simp] theorem State.stepped_report : (s.stepped k m q r).report = s.report.set k r := rfl
@[simp] theorem State.stepped_pending : (s.stepped k m q r).pending = s.pending := rfl

@[simp] theorem turnEnd_report : (turnEnd k s).report = s.report := by unfold turnEnd; split <;> rfl
@[simp] theorem turnEnd_pending : (turnEnd k s).pending = s.pending := by
  unfold turnEnd; split <;> rfl

@[simp] theorem cycleEnd_queue : (cycleEnd s).queue = s.queue := by unfold cycleEnd; split <;> rfl
@[simp] theorem cycleEnd_loaded : (cycleEnd s).loaded = s.loaded := by
  unfold cycleEnd; split <;> rfl

end

section
variable {s t : State} {k : Player}

theorem cycleEnd_of_over (hover : s.roundState ≠ .ongoing) : cycleEnd s = s :=
  if_neg fun hend => hover hend.1

theorem cycleEnd_roundState (hgoes : s.roundState = .ongoing) :
    (cycleEnd s).roundState =
      if s.cfg.maxCycles ≤ s.currentCycle then .draw else .ongoing := by
  unfold cycleEnd
  simp only [hgoes, true_and]
  split
  · rfl
  · exact hgoes

theorem playerTurn_cases (h : playerTurn k s = .next t) :
    (s.loaded.get k = false ∧ t = s) ∨
      (s.loaded.get k = true ∧ ∃ m q r, t = turnEnd k (s.stepped k m q r)) := by
  refine (playerTurn_eq_next.1 h).imp_right ?_
  rintro ⟨hloaded, u, hstep, rfl⟩
  obtain ⟨_, q, l, m, r, -, -, rfl⟩ := stepProcess_next hstep
  exact ⟨hloaded, m, q ++ l, r, rfl⟩

theorem playerTurn_pending (h : playerTurn k s = .next t) : t.pending = s.pending := by
  rcases playerTurn_cases h with ⟨-, rfl⟩ | ⟨-, m, q, r, rfl⟩
  · rfl
  · simp

/-- A turn leaves the queue and the report of its opponent, and of its own player if that is not
loaded. -/
theorem playerTurn_spares {j : Player} (h : playerTurn j s = .next t)
    (hj : j = k → s.loaded.get k = false) :
    t.queue.get k = s.queue.get k ∧ t.report.get k = s.report.get k := by
  rcases playerTurn_cases h with ⟨-, rfl⟩ | ⟨hloaded, m, q, r, rfl⟩
  · exact ⟨rfl, rfl⟩
  · have hne : k ≠ j := by
      rintro rfl
      exact Bool.noConfusion ((hj rfl).symm.trans hloaded)
    simp [PerPlayer.get_set_ne _ _ hne]

/-- Player `k` takes part in the round and has no process left. -/
abbrev State.Beaten (s : State) (k : Player) : Prop :=
  s.loaded.get k = true ∧ s.queue.get k = []

/-- A turn ends the round exactly when it leaves its player beaten. -/
theorem playerTurn_roundState (h : playerTurn k s = .next t) (hround : s.roundState = .ongoing) :
    t.roundState = if t.Beaten k then .wonBy k.other else .ongoing := by
  rcases playerTurn_cases h with ⟨hfree, rfl⟩ | ⟨hloaded, m, q, r, rfl⟩
  · simp [State.Beaten, hfree, hround]
  · simp [State.Beaten, turnEnd_roundState, hloaded, hround]

theorem playerTurn_beaten_other (h : playerTurn k s = .next t) :
    t.Beaten k.other ↔ s.Beaten k.other := by
  obtain ⟨-, hloaded, -⟩ := playerTurn_frame h
  obtain ⟨hqueue, -⟩ := playerTurn_spares h fun hk => absurd hk (Player.ne_other k)
  rw [State.Beaten, hloaded, hqueue]

end

/-! ### What a cycle leaves (R220, R221, R224) -/

section
variable {s t : State}

theorem eq_of_executeCycle_noop (hnoop : s.roundState ≠ .ongoing ∨ s.cfg.maxCycles ≤ s.currentCycle)
    (h : executeCycle s = .next t) : t = s :=
  Host.Outcome.next.inj (h.symm.trans (executeCycle_noop hnoop))

/-- What the count, each turn and the draw at the end keep, a cycle keeps. -/
theorem executeCycle_induction {P : State → Prop}
    (hcount : ∀ u, P u → P { u with currentCycle := u.currentCycle + 1 })
    (hturn : ∀ k u v, playerTurn k u = .next v → P u → P v)
    (hdraw : ∀ u, P u → P { u with roundState := .draw })
    (h : executeCycle s = .next t) (hs : P s) : P t := by
  rcases s.noop_or_cycleLeft with hnoop | ⟨hround, hleft⟩
  · rwa [eq_of_executeCycle_noop hnoop h]
  obtain ⟨u, hturn1, hrest⟩ := (executeCycle_eq_next hround hleft).1 h
  have hu : P u := hturn .p1 _ u hturn1 (hcount s hs)
  rcases hrest with ⟨-, rfl⟩ | ⟨-, v, hturn2, rfl⟩
  · exact hu
  · have hv : P v := hturn .p2 u v hturn2 hu
    unfold cycleEnd
    split
    · exact hdraw v hv
    · exact hv

theorem executeCycle_frame (h : executeCycle s = .next t) :
    t.cfg = s.cfg ∧ t.loaded = s.loaded ∧ t.pending = s.pending := by
  refine executeCycle_induction
    (P := fun u => u.cfg = s.cfg ∧ u.loaded = s.loaded ∧ u.pending = s.pending)
    (fun _ hu => hu) (fun k u v hturn hu => ?_) (fun _ hu => hu) h ⟨rfl, rfl, rfl⟩
  obtain ⟨hcfg, hloaded, -⟩ := playerTurn_frame hturn
  rwa [hcfg, hloaded, playerTurn_pending hturn]

/-- `u` has the load flags, and player `k`'s queue and report, of `s`. -/
def State.Spares (s : State) (k : Player) (u : State) : Prop :=
  u.loaded = s.loaded ∧ u.queue.get k = s.queue.get k ∧ u.report.get k = s.report.get k

theorem executeCycle_spares {k : Player} (hfree : s.loaded.get k = false)
    (h : executeCycle s = .next t) : s.Spares k t := by
  refine executeCycle_induction (P := s.Spares k) (fun _ hu => hu) (fun j u v hturn hu => ?_)
    (fun _ hu => hu) h ⟨rfl, rfl, rfl⟩
  obtain ⟨hflags, hqueue, hreport⟩ := hu
  obtain ⟨-, hloaded, -⟩ := playerTurn_frame hturn
  obtain ⟨hqueue', hreport'⟩ := playerTurn_spares hturn fun _ => by rwa [hflags]
  exact ⟨hloaded.trans hflags, hqueue'.trans hqueue, hreport'.trans hreport⟩

/-- The round after a cycle: a beaten player's opponent has won, and with no player beaten the last
cycle makes a draw. -/
theorem executeCycle_roundState (hround : s.roundState = .ongoing)
    (hleft : s.currentCycle < s.cfg.maxCycles) (h : executeCycle s = .next t) :
    (∃ k, t.Beaten k ∧ t.roundState = .wonBy k.other) ∨
      ((∀ k, ¬ t.Beaten k) ∧
        t.roundState = if s.currentCycle + 1 = s.cfg.maxCycles then .draw else .ongoing) := by
  obtain ⟨u, hturn1, hrest⟩ := (executeCycle_eq_next hround hleft).1 h
  have hround1 := playerTurn_roundState hturn1 hround
  rcases hrest with ⟨hover, rfl⟩ | ⟨hgoes, v, hturn2, rfl⟩
  · have hbeaten : t.Beaten .p1 := by
      by_contra hsafe
      exact hover (hround1.trans (if_neg hsafe))
    exact .inl ⟨.p1, hbeaten, hround1.trans (if_pos hbeaten)⟩
  · have hsafe1 : ¬ u.Beaten .p1 := by
      intro hbeaten
      rw [hround1, if_pos hbeaten] at hgoes
      exact RoundState.wonBy_ne_ongoing _ hgoes
    have hround2 := playerTurn_roundState hturn2 hgoes
    simp only [State.Beaten, cycleEnd_loaded, cycleEnd_queue]
    by_cases hbeaten : v.Beaten .p2
    · rw [if_pos hbeaten] at hround2
      have hover : v.roundState ≠ .ongoing := hround2 ▸ RoundState.wonBy_ne_ongoing _
      exact .inl ⟨.p2, hbeaten, by rw [cycleEnd_of_over hover, hround2]⟩
    · rw [if_neg hbeaten] at hround2
      have hsafe1' : ¬ v.Beaten .p1 := mt (playerTurn_beaten_other hturn2).1 hsafe1
      obtain ⟨hcfg1, -, hcount1⟩ := playerTurn_frame hturn1
      obtain ⟨hcfg2, -, hcount2⟩ := playerTurn_frame hturn2
      have hlast : s.cfg.maxCycles ≤ s.currentCycle + 1 ↔ s.currentCycle + 1 = s.cfg.maxCycles := by
        omega
      refine .inr ⟨fun | .p1 => hsafe1' | .p2 => hbeaten, ?_⟩
      rw [cycleEnd_roundState hround2, hcfg2, hcount2, hcfg1, hcount1]
      simp only [hlast]

/-- The last cycle of a round ends it. -/
theorem executeCycle_last (hround : s.roundState = .ongoing)
    (hlast : s.currentCycle + 1 = s.cfg.maxCycles) (h : executeCycle s = .next t) :
    t.roundState ≠ .ongoing := by
  rcases executeCycle_roundState hround (by omega) h with ⟨k, -, hwon⟩ | ⟨-, hdraw⟩
  · rw [hwon]
    exact RoundState.wonBy_ne_ongoing _
  · rw [hdraw, if_pos hlast]
    decide

/-- A cycle that makes a draw of the round is its last one and leaves no player beaten. -/
theorem executeCycle_draw_iff (hround : s.roundState = .ongoing)
    (hleft : s.currentCycle < s.cfg.maxCycles) (h : executeCycle s = .next t) :
    t.roundState = .draw ↔ s.currentCycle + 1 = s.cfg.maxCycles ∧ ∀ k, ¬ t.Beaten k := by
  rcases executeCycle_roundState hround hleft h with ⟨k, hbeaten, hwon⟩ | ⟨hsafe, hdraw⟩
  · constructor
    · intro hdraw
      exact absurd (hwon.symm.trans hdraw) (RoundState.wonBy_ne_draw _)
    · rintro ⟨-, hsafe⟩
      exact absurd hbeaten (hsafe k)
  · rw [hdraw]
    by_cases hlast : s.currentCycle + 1 = s.cfg.maxCycles
    · rw [if_pos hlast]
      exact iff_of_true rfl ⟨hlast, hsafe⟩
    · rw [if_neg hlast]
      exact iff_of_false (by decide) fun hlast' => hlast hlast'.1

end

/-- Settles O41: no turn touches the queue or the report of a player that is not loaded. -/
theorem unloadedPlayerHasNoTurn : Obligations.UnloadedPlayerHasNoTurn := by
  intro s t k hfree hcycle
  obtain ⟨hloaded, hqueue, hreport⟩ := executeCycle_spares hfree hcycle
  exact ⟨hqueue, hreport, hloaded⟩

/-- Settles O38: `reset` starts a new round, and the commands but `executeCycle` leave the round
state. -/
theorem drawExactlyAtTheCycleLimit : Obligations.DrawExactlyAtTheCycleLimit := by
  constructor
  · intro s t hround hleft hcycle
    obtain ⟨-, hloaded, -⟩ := executeCycle_frame hcycle
    rw [executeCycle_draw_iff hround hleft hcycle]
    simp only [State.Beaten, hloaded, not_and, ne_eq]
  · intro c s t a hperform hs ht
    rcases perform_cases hperform with
      ⟨-, rfl⟩ | ⟨rfl, hcycle⟩ | ⟨-, -, rfl | rfl | ⟨is, offset, k, -, rfl⟩⟩
    · cases ht
    · rcases s.noop_or_cycleLeft with hnoop | ⟨hround, hleft⟩
      · rw [eq_of_executeCycle_noop hnoop hcycle] at ht
        exact absurd ht hs
      · exact ⟨rfl, hround, ((executeCycle_draw_iff hround hleft hcycle).1 ht).1⟩
    all_goals exact absurd ht hs

/-! ### Cycles put together from their turns (R220 to R225) -/

section
variable {s t u v : State} {k : Player} {p : Nat} {q : List Nat}

theorem playerTurn_of_free (hfree : s.loaded.get k = false) : playerTurn k s = .next s :=
  playerTurn_eq_next.2 (.inl ⟨hfree, rfl⟩)

theorem turnEnd_of_lost (h : s.queue.get k = []) :
    turnEnd k s = { s with roundState := .wonBy k.other } := if_pos h

theorem turnEnd_of_alive (h : s.queue.get k ≠ []) : turnEnd k s = s := if_neg h

section
variable (hloaded : s.loaded.get k = true) (hfront : s.Front k p q)
  (hexec : exec (s.readCell p) { s with turn := k } = .next t)
include hloaded hfront hexec

/-- The turn of a loaded player is the instruction at its front process and the test for a loss. -/
theorem playerTurn_of_exec : playerTurn k s = .next (turnEnd k { t with turn := s.turn }) := by
  have hstep : stepProcess k s = .next { t with turn := s.turn } :=
    stepProcess_eq_next.2 ⟨p, q, t, hfront, hexec, rfl⟩
  exact playerTurn_eq_next.2 (.inr ⟨hloaded, _, hstep, rfl⟩)

theorem playerTurn_of_lost (hlost : t.queue.get k = []) :
    playerTurn k s = .next { t with turn := s.turn, roundState := .wonBy k.other } :=
  (playerTurn_of_exec hloaded hfront hexec).trans (congrArg _ (turnEnd_of_lost hlost))

theorem playerTurn_of_alive (halive : t.queue.get k ≠ []) :
    playerTurn k s = .next { t with turn := s.turn } :=
  (playerTurn_of_exec hloaded hfront hexec).trans (congrArg _ (turnEnd_of_alive halive))

end

theorem exec_frame {i : Instr} (h : exec i s = .next t) :
    t.loaded = s.loaded ∧ t.roundState = s.roundState := by
  obtain ⟨_, _, _, _, _, -, -, rfl⟩ := exec_next_stepped h
  exact ⟨rfl, rfl⟩

/-- A step with nothing pending is a cycle (log 7), with the new round state as its result. -/
theorem step_of_cycle (hpending : s.pending = []) (h : executeCycle s = .next t) :
    step s = .next { t with response := some (.round t.roundState) } := by
  have hnext : nextCommand s = (.executeCycle, []) := by simp [nextCommand, hpending]
  have hsame : { s with pending := [] } = s := by rw [← hpending]
  refine step_eq_next.2 ⟨t, .round t.roundState, ?_, rfl⟩
  rw [hnext, hsame, perform, h, andThen_next_left]

/-- A step whose cycle ends without a loss. -/
theorem step_of_cycleEnd (hpending : s.pending = []) (hgoes : t.roundState = .ongoing)
    (h : executeCycle s = .next (cycleEnd t)) : step s = .next (endCycle t) := by
  have hend : endCycle t =
      { cycleEnd t with response := some (.round (cycleEnd t).roundState) } := by
    unfold endCycle cycleEnd
    simp only [hgoes, true_and]
    split
    · rfl
    · rw [hgoes]
  rw [hend]
  exact step_of_cycle hpending h

section
variable (hround : s.roundState = .ongoing) (hleft : s.currentCycle < s.cfg.maxCycles)
  (hturn1 : playerTurn .p1 { s with currentCycle := s.currentCycle + 1 } = .next u)
include hround hleft hturn1

/-- Player 1's loss ends the cycle (R222). -/
theorem executeCycle_of_over (hover : u.roundState ≠ .ongoing) : executeCycle s = .next u :=
  (executeCycle_eq_next hround hleft).2 ⟨u, hturn1, .inl ⟨hover, rfl⟩⟩

theorem executeCycle_of_turns (hgoes : u.roundState = .ongoing)
    (hturn2 : playerTurn .p2 u = .next v) : executeCycle s = .next (cycleEnd v) :=
  (executeCycle_eq_next hround hleft).2 ⟨u, hturn1, .inr ⟨hgoes, v, hturn2, rfl⟩⟩

section
variable (hgoes : u.roundState = .ongoing) (hloaded : u.loaded.p2 = true)
  (hfront : u.Front .p2 p q) (hexec : exec (u.readCell p) { u with turn := .p2 } = .next v)
include hgoes hloaded hfront hexec

theorem executeCycle_of_second_lost (hlost : v.queue.p2 = []) :
    executeCycle s = .next { v with turn := u.turn, roundState := .p1Won } := by
  have hturn2 := playerTurn_of_lost (k := .p2) hloaded hfront hexec hlost
  rw [executeCycle_of_turns hround hleft hturn1 hgoes hturn2]
  exact congrArg _ (cycleEnd_of_over (RoundState.wonBy_ne_ongoing .p1))

/-- Player 2's turn ends the cycle, with its loss (R223) or without. -/
theorem step_of_second_turn (hpending : s.pending = []) :
    (v.queue.p2 = [] → step s = .next (wonState .p1 { v with turn := u.turn })) ∧
      (v.queue.p2 ≠ [] → step s = .next (endCycle { v with turn := u.turn })) := by
  constructor
  · intro hlost
    exact step_of_cycle hpending
      (executeCycle_of_second_lost hround hleft hturn1 hgoes hloaded hfront hexec hlost)
  · intro halive
    have hturn2 := playerTurn_of_alive (k := .p2) hloaded hfront hexec halive
    have hgoes2 : v.roundState = .ongoing := (exec_frame hexec).2.trans hgoes
    exact step_of_cycleEnd hpending hgoes2
      (executeCycle_of_turns hround hleft hturn1 hgoes hturn2)

end

end

/-- Player 1's instruction leaves it without a process: player 2 wins and has no turn (R222). -/
theorem executeCycle_of_first_lost (hround : s.roundState = .ongoing)
    (hleft : s.currentCycle < s.cfg.maxCycles) (hloaded : s.loaded.p1 = true)
    (hfront : s.Front .p1 p q) (hexec : exec (s.readCell p) (cycleStart s) = .next t)
    (hlost : t.queue.p1 = []) :
    executeCycle s = .next { t with turn := s.turn, roundState := .p2Won } := by
  have hturn1 := playerTurn_of_lost (k := .p1)
    (s := { s with currentCycle := s.currentCycle + 1 }) hloaded hfront hexec hlost
  exact executeCycle_of_over hround hleft hturn1 (RoundState.wonBy_ne_ongoing .p2)

end

/-- Settles O36: player 1's instruction leaves the queue and the report of player 2. -/
theorem playerOneLosesAtOnce : Obligations.PlayerOneLosesAtOnce := by
  intro s t p q hround hleft hloaded hfront hexec hlost
  refine ⟨executeCycle_of_first_lost hround hleft hloaded hfront hexec hlost, ?_⟩
  obtain ⟨_, _, _, _, _, -, -, rfl⟩ := exec_next_stepped hexec
  exact ⟨rfl, rfl⟩

/-- Settles O33: player 1's turn is the fetched instruction; the cycle ends there if it lost, and
else with player 2's turn, if any. -/
theorem stepRunsTheFetchedInstruction : Obligations.StepRunsTheFetchedInstruction := by
  intro s t p q hpending hround hleft hloaded hfront hexec
  obtain ⟨hflags, hgoes⟩ := exec_frame hexec
  have hgoes1 : t.roundState = .ongoing := hgoes.trans hround
  have hturn1 (halive : t.queue.p1 ≠ []) :
      playerTurn .p1 { s with currentCycle := s.currentCycle + 1 } =
        .next { t with turn := s.turn } :=
    playerTurn_of_alive (k := .p1) (s := { s with currentCycle := s.currentCycle + 1 })
      hloaded hfront hexec halive
  refine ⟨fun hlost => ?lost, fun halive hfree => ?alone, fun halive hloaded2 => ?both⟩
  case lost =>
    exact step_of_cycle hpending
      (executeCycle_of_first_lost hround hleft hloaded hfront hexec hlost)
  case alone =>
    have hfree2 : t.loaded.p2 = false := hflags ▸ hfree
    exact step_of_cycleEnd hpending hgoes1
      (executeCycle_of_turns hround hleft (hturn1 halive) hgoes1 (playerTurn_of_free hfree2))
  case both =>
    intro p2 q2 v hfront2 hexec2
    have hloaded2' : t.loaded.p2 = true := hflags ▸ hloaded2
    exact step_of_second_turn (u := { t with turn := s.turn }) hround hleft (hturn1 halive) hgoes1
      hloaded2' hfront2 hexec2 hpending

/-- Settles O34: player 1 has no turn, so that player 2's turn is the whole cycle. -/
theorem stepRunsPlayerTwoAlone : Obligations.StepRunsPlayerTwoAlone := by
  intro s t p q hpending hround hleft hfree hloaded hfront hexec
  exact step_of_second_turn (u := { s with currentCycle := s.currentCycle + 1 }) hround hleft
    (playerTurn_of_free hfree) hround hloaded hfront hexec hpending

/-- Settles O39: a cycle without a turn only counts and ends; a first cycle that is the last one
ends its round. -/
theorem cyclesWithoutAStep : Obligations.CyclesWithoutAStep := by
  intro s
  refine ⟨executeCycle_noop, fun hround hleft hfree1 hfree2 => ?count, fun hlimit hfirst t h => ?one⟩
  case count =>
    rw [executeCycle_of_turns hround hleft (playerTurn_of_free hfree1) hround
      (playerTurn_of_free hfree2)]
    have hlast : s.cfg.maxCycles ≤ s.currentCycle + 1 ↔ s.cfg.maxCycles = s.currentCycle + 1 := by
      omega
    simp only [cycleEnd, hround, hlast, true_and]
    split <;> rfl
  case one =>
    by_cases hround : s.roundState = .ongoing
    · exact executeCycle_last hround (by omega) h
    · rwa [eq_of_executeCycle_noop (.inl hround) h]

/-! ### How a queue becomes empty (R223) -/

theorem Effect.Pushes.unique {s : State} {e : Effect} {l l' : List Nat} (h : e.Pushes s l)
    (h' : e.Pushes s l') : l = l' :=
  List.append_cancel_left (h.symm.trans h')

/-- A data instruction that skips zero divisors enqueues nothing only by a zero divisor. -/
theorem zeroDivisor_of_dataEffect_pushes_nil {g : FieldOp} (hg : SkipsZeroDivisors g) {m : Modifier}
    {o : Operands} {s : State} (h : (dataEffect g m o s).Pushes s []) : ZeroDivisor m o.src := by
  have hpushes := dataEffect_pushes g m o s
  split at hpushes
  · rename_i hskips
    exact (hg.skips_iff s.cfg.coreSize m o).1 hskips
  · cases h.unique hpushes

/-- An instruction that enqueues nothing is `KIL`, or `DIV` or `MOD` with a zero divisor. -/
theorem kills_of_effectOf_pushes_nil {i : Instr} {o : Operands} {s : State}
    (h : (effectOf i o s).Pushes s []) :
    i.op = .kil ∨ ((i.op = .div ∨ i.op = .mod) ∧ ZeroDivisor i.fields.mod o.src) := by
  have hop : i.op ∈ [.kil, .div, .mod] := by
    rcases effectOf_pushes i o s with ⟨-, hop⟩ | ⟨a, hone, -⟩ | ⟨a, b, htwo, -⟩
    · exact hop
    · cases h.unique hone
    · cases h.unique htwo
  cases i with
  | kil f => exact .inl rfl
  | div f =>
    exact .inr ⟨.inl rfl, zeroDivisor_of_dataEffect_pushes_nil divOp_skipsZeroDivisors h⟩
  | mod f =>
    exact .inr ⟨.inr rfl, zeroDivisor_of_dataEffect_pushes_nil modOp_skipsZeroDivisors h⟩
  | frk f | nop f | mov f | add f | sub f | mul f | jmp f | jmz f | jmn f | beq f | bne f | blt f =>
    simp at hop

@[simp] theorem State.popped_queue (s : State) (q : List Nat) :
    (s.popped q).queue = s.queue.set s.turn q := rfl

/-- An instruction pops one process of its owner, enqueues what its effect does, and leaves the
opponent's queue. -/
theorem exec_queues {i : Instr} {s t : State} (h : exec i s = .next t) :
    ∃ p q l, s.Front s.turn p q ∧
      (effectOf i (operandsOf i.fields p s) (s.popped q)).Pushes (s.popped q) l ∧
      t.queue.get s.turn = q ++ l ∧ t.queue.get s.turn.other = s.queue.get s.turn.other := by
  obtain ⟨p, q, hfront, rfl⟩ := exec_eq_next.1 h
  obtain ⟨m, l, hstate, -⟩ := effectOf_lawful i ((operandsOf_inCore i.fields hfront.2).popped q)
  refine ⟨p, q, l, hfront, ?pushes, ?own, ?opponent⟩
  case pushes => simp [Effect.Pushes, hstate, State.written]
  case own => simp [hstate, State.written]
  case opponent => simp [hstate, State.written]

/-- Settles O37: a queue that an instruction empties is its owner's, which held the executing
process alone, and nothing was enqueued. -/
theorem playerTwoLosesAtOnce : Obligations.PlayerTwoLosesAtOnce := by
  constructor
  · intro s u t p q hround hleft hturn1 hgoes hloaded hfront hexec hlost
    exact executeCycle_of_second_lost hround hleft hturn1 hgoes hloaded hfront hexec hlost
  · intro i s t k hexec hsome hnone
    obtain ⟨p, q, l, hfront, hpushes, hown, hopponent⟩ := exec_queues hexec
    obtain rfl | rfl := Player.eq_or_other s.turn k
    · obtain ⟨rfl, rfl⟩ := List.append_eq_nil_iff.1 (hown.symm.trans hnone)
      have honly : s.queue.get s.turn = [p] := hfront.1
      refine ⟨rfl, congrArg List.length honly, ?_⟩
      exact (kills_of_effectOf_pushes_nil hpushes).imp_right fun ⟨hop, hzero⟩ =>
        ⟨hop, p, honly, hzero⟩
    · exact absurd (hopponent.symm.trans hnone) hsome

/-! ### What a load copies (R211) -/

/-- Within one round of the core, different distances from a cell reach different cells. -/
theorem wrap_ne_of_lt {size o j j' : Nat} (hlt : j < j') (hround : j' < j + size) :
    wrap size o j ≠ wrap size o j' := by
  rw [wrap_natCast, wrap_natCast]
  intro heq
  have hmod : (j' - j) % size = 0 := by
    have hdiff := Nat.sub_mod_eq_zero_of_mod_eq heq.symm
    rwa [Nat.add_sub_add_left] at hdiff
  rw [Nat.mod_eq_of_lt (by omega)] at hmod
  omega

theorem normalize_eq_withValues (size : Nat) (i : Instr) :
    normalize size i = withValues i (av i % size) (bv i % size) := by
  rw [normalize, fmod_natCast, fmod_natCast, withValues]

/-- A copy leaves every cell that is none of its targets. -/
theorem copyProgram_readCell_of_ne (o j a : Nat) (is : List Instr) (s : State)
    (ha : ∀ n < is.length, a ≠ plus s o (j + n : Nat)) :
    (copyProgram o j is s).readCell a = s.readCell a := by
  induction is generalizing j s with
  | nil => rfl
  | cons i is ih =>
    have hfirst : a ≠ plus s o j := ha 0 (Nat.zero_lt_succ _)
    rw [copyProgram, ih, State.readCell_writeCell, State.after, if_neg hfirst]
    intro n hn
    have hnext := ha (n + 1) (Nat.succ_lt_succ hn)
    rwa [show j + (n + 1) = j + 1 + n by omega] at hnext

/-- A copy no longer than the core puts each Instruction, reduced, at its distance from the start:
the later ones go to other cells. -/
theorem copyProgram_readCell (o j n : Nat) {is : List Instr} {s : State} {i : Instr}
    (hlength : is.length ≤ s.cfg.coreSize) (hi : is[n]? = some i) :
    (copyProgram o j is s).readCell (plus s o (j + n : Nat)) = normalize s.cfg.coreSize i := by
  induction is generalizing j n s with
  | nil => cases hi
  | cons i' is ih =>
    rw [List.length_cons] at hlength
    cases n with
    | zero =>
      cases hi
      rw [copyProgram, copyProgram_readCell_of_ne]
      · exact s.readCell_writeCell_same _ _
      · exact fun n hn => wrap_ne_of_lt (by omega) (by omega)
    | succ n =>
      have hrest := ih (s := s.writeCell (s.after o j) (normalize s.cfg.coreSize i')) (j + 1) n
        (Nat.le_of_succ_le hlength) hi
      rwa [show j + (n + 1) = j + 1 + n by omega]

theorem perform_load (is : List Instr) (offset : Int) (k : Player) (s : State) :
    perform (.loadProgram is offset k) s = .next (loadOutcome s (loadProgram is offset k s)) := rfl

/-- Settles O45: of the two errors the length comes first; a load without an error is the copy, one
process pushed and the flag set. -/
theorem loadProgramCopiesAndSeeds : Obligations.LoadProgramCopiesAndSeeds := by
  intro is offset k s size o
  rw [perform_load, loadProgram_eq]
  refine ⟨fun hlong => by rw [if_pos hlong]; rfl, fun hfits hloaded => ?loaded,
    fun hfits hfree => ?free⟩
  case loaded => rw [if_neg (Nat.not_lt.2 hfits), if_pos hloaded]; rfl
  case free =>
    rw [if_neg (Nat.not_lt.2 hfits), if_neg (by simp [hfree])]
    have hread (a : Nat) :
        (loadedState is offset k s).readCell a = (copyProgram o 0 is s).readCell a := rfl
    have hqueue : (loadedState is offset k s).queue.get k = s.queue.get k ++ [o] :=
      PerPlayer.get_set_same _ _ _
    refine ⟨_, rfl, fun j i hi => ?copied, fun a ha => ?kept, hqueue, fun hinv => ?seeded,
      PerPlayer.get_set_other _ _ _, PerPlayer.get_set_same _ _ _, PerPlayer.get_set_other _ _ _,
      rfl, rfl, rfl, rfl, rfl, rfl, rfl⟩
    case copied =>
      have hcopy := copyProgram_readCell o 0 j hfits hi
      rwa [Nat.zero_add, normalize_eq_withValues] at hcopy
    case kept =>
      rw [hread]
      exact copyProgram_readCell_of_ne o 0 a is s fun n hn => by rw [Nat.zero_add]; exact ha n hn
    case seeded =>
      obtain ⟨⟨-, hplayers⟩, -⟩ := s.inv_iff.1 hinv
      obtain ⟨-, -, hunloaded, -⟩ := hplayers k
      rw [hqueue, List.length_eq_zero_iff.1 (hunloaded hfree), List.nil_append]

/-! ### The other commands (R213 to R216) -/

theorem loadedState_loaded {is : List Instr} {offset : Int} {k j : Player} {s : State}
    (h : s.loaded.get j = true) : (loadedState is offset k s).loaded.get j = true := by
  obtain rfl | rfl := Player.eq_or_other k j
  · exact PerPlayer.get_set_same _ _ _
  · exact (PerPlayer.get_set_other _ _ _).trans h

/-- Settles O43: a cycle changes neither parameters nor load flags and is a no-op in a terminal round
state; a load only sets a flag. -/
theorem onlyResetFreesASlotOrLeavesATerminalState :
    Obligations.OnlyResetFreesASlotOrLeavesATerminalState := by
  refine ⟨fun s => ⟨hostReset s, rfl, rfl, coreRead_nil, ?queue, ?loaded, rfl, rfl, ?report⟩, ?_⟩
  case queue | loaded | report => exact fun | .p1 | .p2 => rfl
  intro c s t a hperform
  rcases perform_cases hperform with
    ⟨rfl, rfl⟩ | ⟨-, hcycle⟩ | ⟨-, -, rfl | rfl | ⟨is, offset, k, -, rfl⟩⟩
  · exact ⟨rfl, fun hne => absurd rfl hne⟩
  · obtain ⟨hcfg, hloaded, -⟩ := executeCycle_frame hcycle
    refine ⟨hcfg, fun _ => ⟨fun hover => ?_, fun k hk => hloaded ▸ hk⟩⟩
    rw [eq_of_executeCycle_noop (.inl hover) hcycle]
  · exact ⟨rfl, fun _ => ⟨fun _ => rfl, fun _ hk => hk⟩⟩
  · exact ⟨rfl, fun _ => ⟨fun _ => rfl, fun _ hk => hk⟩⟩
  · exact ⟨rfl, fun _ => ⟨fun _ => rfl, fun _ => loadedState_loaded⟩⟩

theorem perform_executeCycle_eq_next {s t : State} {a : Response} :
    perform .executeCycle s = .next (t, a) ↔
      executeCycle s = .next t ∧ a = .round t.roundState := by
  simp only [perform, andThen_eq_next]
  constructor
  · rintro ⟨u, hcycle, hu⟩
    cases hu
    exact ⟨hcycle, rfl⟩
  · rintro ⟨hcycle, rfl⟩
    exact ⟨t, hcycle, rfl⟩

theorem perform_observe {q : Query} {s : State} {a : Response} (h : observe q s = .next a) :
    perform (.observe q) s = .next (s, a) := by
  rw [perform, h, andThen_next_left]

/-- Settles O44: each observer answers from the state it is given. -/
theorem clearReportsAndObserversLeaveTheRest : Obligations.ClearReportsAndObserversLeaveTheRest := by
  intro s k a
  refine ⟨rfl, perform_observe rfl, perform_observe rfl, perform_observe rfl, perform_observe rfl,
    perform_observe rfl, fun ha => perform_observe (if_pos ha), fun t r h => ?_⟩
  exact (perform_executeCycle_eq_next.1 h).2

/-! ### A table word where the next step fetches it (logs 15, 16) -/

/-- Player 1's queue after `placeFirst`. -/
def seededQueue (s : State) : List Nat :=
  match s.queue.p1 with
  | [] => [0]
  | p :: q => if p < s.cfg.coreSize then p :: q else [0]

theorem seededQueue_eq_cons (s : State) : ∃ p q, seededQueue s = p :: q ∧ p < s.cfg.coreSize := by
  unfold seededQueue
  split
  · exact ⟨0, [], rfl, s.cfg.coreSize_pos⟩
  split
  · rename_i p q _ hp
    exact ⟨p, q, rfl, hp⟩
  · exact ⟨0, [], rfl, s.cfg.coreSize_pos⟩

theorem placeFirst_queue (i : Instr) (s : State) :
    (placeFirst i s).queue.p1 = seededQueue s := rfl

theorem placeFirst_readCell (i : Instr) (s : State) :
    (placeFirst i s).readCell ((seededQueue s).headD 0) = normalize s.cfg.coreSize i :=
  s.readCell_writeCell_same _ _

theorem placeFirst_currentCycle_lt (i : Instr) {s : State} (hlimit : 0 < s.cfg.maxCycles) :
    (placeFirst i s).currentCycle < s.cfg.maxCycles := by
  change (if s.currentCycle < s.cfg.maxCycles then s.currentCycle else 0) < s.cfg.maxCycles
  split
  · assumption
  · exact hlimit

/-- Settles O35: `placeFirst` stores the Instruction at the head of player 1's queue, which is a cell
of the core. -/
theorem tableWordIsFetchedNext : Obligations.TableWordIsFetchedNext := by
  intro s nbits w i hdecode hlimit
  have hplace : s.withFetchWord nbits w = placeFirst i s := by
    rw [State.withFetchWord, placeTableWord, hdecode]
  rw [hplace]
  obtain ⟨p, q, hqueue, hp⟩ := seededQueue_eq_cons s
  have hread := placeFirst_readCell i s
  rw [hqueue, normalize_eq_withValues] at hread
  exact ⟨rfl, rfl, placeFirst_currentCycle_lt i hlimit, rfl, p, q,
    ⟨(placeFirst_queue i s).trans hqueue, hp⟩, hread⟩

/-! ### Every round ends (R226) -/

theorem exec_total (i : Instr) {s : State} {p : Nat} {q : List Nat} (hfront : s.Front s.turn p q) :
    ∃ t, exec i s = .next t :=
  ⟨_, exec_eq_next.2 ⟨p, q, hfront, rfl⟩⟩

/-- Under the invariant no turn faults: a loaded player in an ongoing round has a front process in
the core. -/
theorem playerTurn_total {s : State} (h : s.TurnInv) (hround : s.roundState = .ongoing)
    (k : Player) : ∃ t, playerTurn k s = .next t := by
  cases hloaded : s.loaded.get k with
  | false => exact ⟨s, playerTurn_of_free hloaded⟩
  | true =>
    obtain ⟨haddr, -, -, halive, -⟩ := h.2 k
    obtain ⟨p, q, hqueue⟩ := List.exists_cons_of_length_pos (halive hloaded hround)
    have hfront : s.Front k p q := ⟨hqueue, haddr p (by simp [hqueue])⟩
    obtain ⟨t, hexec⟩ := exec_total (s.readCell p) (s := { s with turn := k }) hfront
    exact ⟨_, playerTurn_of_exec hloaded hfront hexec⟩

/-- Under the invariant no cycle faults. -/
theorem executeCycle_total {s : State} (h : s.Inv) : ∃ t, executeCycle s = .next t := by
  rcases s.noop_or_cycleLeft with hnoop | ⟨hround, hleft⟩
  · exact ⟨s, executeCycle_noop hnoop⟩
  have hinv : ({ s with currentCycle := s.currentCycle + 1 } : State).TurnInv := (s.inv_iff.1 h).1
  obtain ⟨u, hturn1⟩ := playerTurn_total hinv hround .p1
  by_cases hgoes : u.roundState = .ongoing
  · obtain ⟨hinv1, -⟩ :=
      playerTurn_keeps (s := { s with currentCycle := s.currentCycle + 1 }) hround hinv hturn1
    obtain ⟨v, hturn2⟩ := playerTurn_total hinv1 hgoes .p2
    exact ⟨_, executeCycle_of_turns hround hleft hturn1 hgoes hturn2⟩
  · exact ⟨u, executeCycle_of_over hround hleft hturn1 hgoes⟩

/-- A round that goes on has one cycle less before it than before the cycle. -/
theorem executeCycle_cyclesLeft {s t : State} {n : Nat} (h : executeCycle s = .next t)
    (hleft : s.roundState = .ongoing → s.cfg.maxCycles ≤ s.currentCycle + (n + 1))
    (hgoes : t.roundState = .ongoing) : t.cfg.maxCycles ≤ t.currentCycle + n := by
  rcases s.noop_or_cycleLeft with hnoop | ⟨hround, hcycle⟩
  · obtain rfl := eq_of_executeCycle_noop hnoop h
    exact (hnoop.resolve_left (not_not_intro hgoes)).trans (Nat.le_add_right _ _)
  · obtain ⟨hcfg, -⟩ := executeCycle_frame h
    have hcount := executeCycle_currentCycle hround hcycle h
    have := hleft hround
    rw [hcfg]
    omega

/-- A run of at least as many cycles as the round has left ends it. -/
theorem run_ends_round (n : Nat) {s : State} (hinv : s.Inv) (hpending : s.pending = [])
    (hlimit : 1 ≤ s.cfg.maxCycles)
    (hleft : s.roundState = .ongoing → s.cfg.maxCycles ≤ s.currentCycle + n) :
    ∃ t : State, Host.Core.run Sys2Proof.core n s = .next t ∧ t.roundState ≠ .ongoing := by
  induction n generalizing s with
  | zero =>
    refine ⟨s, rfl, fun hgoes => ?_⟩
    obtain ⟨-, -, -, hcycleLeft⟩ := s.inv_iff.1 hinv
    have := hcycleLeft hgoes
    have := hleft hgoes
    omega
  | succ n ih =>
    obtain ⟨t, hcycle⟩ := executeCycle_total hinv
    obtain ⟨hcfg, -, hpending'⟩ := executeCycle_frame hcycle
    have hleft' := executeCycle_cyclesLeft hcycle hleft
    have hstep := step_of_cycle hpending hcycle
    obtain ⟨u, hrun, hover⟩ := ih (stepKeepsTheInvariant s _ hinv hstep) (hpending'.trans hpending)
      (hlimit.trans_eq (congrArg Config.maxCycles hcfg.symm)) hleft'
    exact ⟨u, (run_succ n hstep).trans hrun, hover⟩

/-- Settles O52: the run has as many steps as the round has cycles left. -/
theorem everyRoundEnds : Obligations.EveryRoundEnds := by
  intro s hinv hpending hlimit
  exact run_ends_round _ hinv hpending hlimit fun _ => by omega

end Sys2Proof.Machine

/-! SUPPORT. Proofs of the statements of `45_assembler_load.md`: the inferred modifier (R255), label
operands (R256), all or nothing (R250, R262), the writer (R265) and the source's examples (R264). -/

namespace Sys2Proof.Machine

/-- A displacement counts modulo the core size only. -/
theorem wrap_fmod {size : Nat} (hsize : 0 < size) (a : Nat) (n : Int) :
    wrap size a (fmod n size) = wrap size a n := by
  unfold wrap
  refine fmod_eq_fmod_of_dvd_sub ?_
  have hdvd := (dvd_sub_fmod n hsize).neg_right
  rwa [neg_sub, ← add_sub_add_left_eq_sub _ _ (a : Int)] at hdvd

end Sys2Proof.Machine

namespace Sys2Proof.Assembly

open Sys2Proof.Machine

/-! ### The modifier of an accepted line (R255, R258) -/

/-- What an accepted line has for its modifier, given what its modifier part reads as. -/
theorem decodeLine_mod {size idx : Nat} {labels : Labels} {t : Token} {rest rest' : List Token}
    {i : Instr} {m : Option Modifier} (hline : decodeLine size labels idx (t :: rest) = .ok i)
    (hmod : parseModifier rest = .ok (m, rest')) :
    i.fields.mod = m.getD (defaultModifier i.op i.fields.aMode i.fields.bMode) := by
  simp only [decodeLine, hmod] at hline
  split at hline
  · cases hline
  split at hline
  · cases hline
  split at hline
  · cases hline
  cases hline
  rw [Instr.op_instr, Instr.fields_instr]

section
variable (am bm : AddrMode)

theorem defaultModifier_of_whole_cell : ∀ op ∈ [Opcode.mov, .beq, .bne],
    defaultModifier op am bm = if am = .imm then .ab else if bm = .imm then .b else .i := by
  simp [defaultModifier]

theorem defaultModifier_of_arithmetic : ∀ op ∈ [Opcode.add, .sub, .mul, .div, .mod],
    defaultModifier op am bm = if am = .imm then .ab else if bm = .imm then .b else .f := by
  simp [defaultModifier]

end

/-- The three exclusive cases of two tests made in the order written (R255). -/
theorem ite_ite_cases {α : Type} {p q : Prop} [Decidable p] [Decidable q] {v x y z : α}
    (h : v = if p then x else if q then y else z) :
    (p → v = x) ∧ (¬ p → q → v = y) ∧ (¬ p → ¬ q → v = z) := by
  subst h
  exact ⟨fun hp => if_pos hp, fun hp hq => (if_neg hp).trans (if_pos hq),
    fun hp hq => (if_neg hp).trans (if_neg hq)⟩

/-- Settles O55: the modifier of an accepted line, and the table row by row. -/
theorem defaultModifierTable : Obligations.DefaultModifierTable := by
  refine ⟨fun _ _ _ _ _ _ _ _ => decodeLine_mod, fun am bm => ?table⟩
  refine ⟨?process, ?jump, ?whole, ?arith, ?blt⟩
  case process => simp [defaultModifier]
  case jump => simp [defaultModifier]
  case whole => exact fun op hop => ite_ite_cases (defaultModifier_of_whole_cell am bm op hop)
  case arith => exact fun op hop => ite_ite_cases (defaultModifier_of_arithmetic am bm op hop)
  case blt => exact ⟨fun h => if_pos h, fun h => if_neg h⟩

/-! ### Label operands (R256) -/

theorem isDigitChar_of_isNameStart {c : Char} (h : isNameStart c = true) :
    isDigitChar c = false := by
  rw [Bool.eq_false_iff, Ne, isDigitChar_iff]
  intro hdigit
  simp only [isNameStart, Bool.or_eq_true, Bool.and_eq_true, decide_eq_true_eq, beq_iff_eq] at h
  rcases h with h | rfl
  · omega
  · exact absurd hdigit (by decide)

/-- An identifier is no integer: its first character is neither a minus nor a digit (R111). -/
theorem parseInteger_of_isIdentifier {t : Token} (h : isIdentifier t = true) :
    parseInteger t = none := by
  cases t with
  | nil => rfl
  | cons c cs =>
    have hstart : isNameStart c = true := (Bool.and_eq_true_iff.1 h).1
    unfold parseInteger
    split
    · rename_i hminus
      cases hminus
      cases hstart
    · simp [parseDigits, isDigitChar_of_isNameStart hstart]

theorem operandValue_label {size idx l : Nat} {labels : Labels} {name : Token} {mode : AddrMode}
    (hname : isIdentifier name = true) (hmode : mode ≠ .imm)
    (hlabel : lookupLabel labels name = some l) :
    operandValue size labels idx mode name = .ok (fmod ((l : Int) - idx) size) := by
  simp [operandValue, parseInteger_of_isIdentifier hname, hname, hmode, hlabel]

/-- Settles O56: the load offset cancels, since the moves by `idx` and by `l - idx` add up. -/
theorem labelOperandsReachTheirInstruction : Obligations.LabelOperandsReachTheirInstruction := by
  intro size idx l o labels name mode hsize hname hmode hlabel
  refine ⟨_, operandValue_label hname hmode hlabel, rfl, ?_⟩
  rw [wrap_fmod hsize, wrap_wrap hsize, add_sub_cancel]

/-! ### Pass 2 line by line (R255 to R262) -/

section
variable {size idx n : Nat} {labels : Labels} {tokens : List Token}
  {lines : List (Nat × List Token)}

theorem secondPass_cons_ok {i : Instr} (h : decodeLine size labels idx tokens = .ok i) :
    secondPass size labels idx ((n, tokens) :: lines) =
      (i :: (secondPass size labels (idx + 1) lines).1,
        (secondPass size labels (idx + 1) lines).2) := by
  simp [secondPass, h]

theorem secondPass_cons_error {e : AsmError} (h : decodeLine size labels idx tokens = .error e) :
    secondPass size labels idx ((n, tokens) :: lines) =
      ((secondPass size labels (idx + 1) lines).1,
        (n, e) :: (secondPass size labels (idx + 1) lines).2) := by
  simp [secondPass, h]

/-- The errors of pass 2 are those of the lines that do not decode, each under its line number. -/
theorem mem_secondPass_errors {e : Nat × AsmError} :
    e ∈ (secondPass size labels idx lines).2 ↔
      ∃ (j : Nat) (tokens : List Token), lines[j]? = some (e.1, tokens) ∧
        decodeLine size labels (idx + j) tokens = .error e.2 := by
  induction lines generalizing idx with
  | nil => simp [secondPass]
  | cons line lines ih =>
    obtain ⟨n, tokens⟩ := line
    have hlater : (∃ (j : Nat) (tokens' : List Token),
        ((n, tokens) :: lines)[j + 1]? = some (e.1, tokens') ∧
          decodeLine size labels (idx + (j + 1)) tokens' = .error e.2) ↔
        e ∈ (secondPass size labels (idx + 1) lines).2 := by
      simp only [ih, List.getElem?_cons_succ, Nat.add_assoc, Nat.add_comm 1]
    rw [← Nat.or_exists_add_one, hlater]
    cases hline : decodeLine size labels idx tokens with
    | ok i => simp [secondPass_cons_ok hline, hline]
    | error e' => simp [secondPass_cons_error hline, hline, Prod.ext_iff, eq_comm]

/-- Without an error, pass 2 gives for each line what the line decodes to. -/
theorem secondPass_of_no_error (h : (secondPass size labels idx lines).2 = []) :
    (secondPass size labels idx lines).1.length = lines.length ∧
      ∀ (j n : Nat) (tokens : List Token), lines[j]? = some (n, tokens) →
        ∃ i, (secondPass size labels idx lines).1[j]? = some i ∧
          decodeLine size labels (idx + j) tokens = .ok i := by
  induction lines generalizing idx with
  | nil => simp [secondPass]
  | cons line lines ih =>
    obtain ⟨n, tokens⟩ := line
    cases hline : decodeLine size labels idx tokens with
    | error e =>
      rw [secondPass_cons_error hline] at h
      cases h
    | ok i =>
      rw [secondPass_cons_ok hline] at h ⊢
      obtain ⟨hlength, hdecodes⟩ := ih h
      refine ⟨congrArg (· + 1) hlength, fun j n' tokens' hj => ?_⟩
      cases j with
      | zero =>
        cases hj
        exact ⟨i, rfl, hline⟩
      | succ j =>
        rw [← Nat.add_assoc, Nat.add_right_comm]
        exact hdecodes j n' tokens' hj

end

/-! ### The result of an assembly (R250, R262) -/

theorem insertError_perm (e : Nat × AsmError) (es : List (Nat × AsmError)) :
    (insertError e es).Perm (e :: es) := by
  induction es with
  | nil => exact .refl _
  | cons e' es ih =>
    unfold insertError
    split
    · exact .refl _
    · exact (ih.cons e').trans (.swap ..)

/-- Ordering the errors by line loses and adds none. -/
theorem foldr_insertError_perm (es : List (Nat × AsmError)) :
    (es.foldr insertError []).Perm es := by
  induction es with
  | nil => exact .refl _
  | cons e es ih => exact (insertError_perm e _).trans (ih.cons e)

section
variable {size : Nat} {lines : List (List Char)}

theorem assembleLines_eq_ok {program : List Instr} (h : assembleLines size lines = .ok program) :
    (firstPass lines).errors = [] ∧
      secondPass size (firstPass lines).labels 0 (firstPass lines).lines = (program, []) := by
  unfold assembleLines at h
  dsimp only at h
  split at h
  · rename_i hnone
    obtain ⟨hfirst, hsecond⟩ := List.append_eq_nil_iff.1 hnone
    cases h
    exact ⟨hfirst, Prod.ext rfl hsecond⟩
  · cases h

theorem assembleLines_eq_failed {errors : List (Nat × AsmError)}
    (h : assembleLines size lines = .failed errors) :
    errors ≠ [] ∧ errors.Perm ((firstPass lines).errors ++
      (secondPass size (firstPass lines).labels 0 (firstPass lines).lines).2) := by
  unfold assembleLines at h
  dsimp only at h
  split at h
  · cases h
  · rename_i hsome
    cases h
    have hperm := foldr_insertError_perm ((firstPass lines).errors ++
      (secondPass size (firstPass lines).labels 0 (firstPass lines).lines).2)
    exact ⟨fun hnil => hsome (List.nil_perm.1 (hnil ▸ hperm)), hperm⟩

end

/-- Settles O58: a success is a pass 1 and a pass 2 without error, and the errors of a failure are
those of the two passes. -/
theorem assemblyIsAllOrNothing : Obligations.AssemblyIsAllOrNothing := by
  intro size lines hsize c
  refine ⟨fun program hok => ?success, fun errors hfailed => ?failure⟩
  case success =>
    obtain ⟨hfirst, hsecond⟩ := assembleLines_eq_ok hok
    have hprogram := secondPass_of_no_error (congrArg Prod.snd hsecond)
    simp only [hsecond, Nat.zero_add] at hprogram
    obtain ⟨hlength, hdecodes⟩ := hprogram
    refine ⟨hfirst, hlength, hdecodes, fun i hi => ?values⟩
    have hmem : i ∈ (secondPass size (firstPass lines).labels 0 (firstPass lines).lines).1 := by
      rwa [hsecond]
    exact fitsCore_of_mem_secondPass hsize hmem
  case failure =>
    obtain ⟨hne, hperm⟩ := assembleLines_eq_failed hfailed
    refine ⟨hne, fun e => ?_⟩
    rw [hperm.mem_iff, List.mem_append, mem_secondPass_errors]
    simp only [Nat.zero_add]
    exact Iff.rfl

/-! ### The writer (R265) -/

theorem length_encode (i : Instr) : (encode i).length = 12 := rfl

theorem length_encodeProgram (is : List Instr) :
    (encodeProgram is).length = 12 * is.length := by
  simp [encodeProgram, List.length_flatMap, length_encode, Nat.mul_comm]

/-- Settles O59: the records written are those of the assembled list, 12 bytes each, which the
reader reads back. -/
theorem writerNeedsASuccessfulAssembly : Obligations.WriterNeedsASuccessfulAssembly :=
  ⟨fun program => ⟨rfl, length_encodeProgram program, decodeProgram_encodeProgram⟩, rfl,
    fun _ => rfl⟩

/-! ### The source's examples (R264) -/

/-- Settles O54: the assembler is run on the four texts. -/
theorem sourceAssemblerExamples : Obligations.SourceAssemblerExamples := by
  refine ⟨?_, ?_, ?_, ?_⟩
  · decide
  · decide
  · decide
  · decide

end Sys2Proof.Assembly

/-! SUPPORT. Proofs of the statements of `60_exceptions.md`: the control state that no instruction
touches (R304, R306, R309), the load errors (R292), the faults that the invariant rules out (R295)
and construction (R293). -/

namespace Sys2Proof.Machine

/-! ### The control state (R304, R306, R309) -/

/-- Settles O31: an instruction replaces only the core, and the queue and report of the player on
turn. -/
theorem noInstructionTouchesControlState : Obligations.NoInstructionTouchesControlState := by
  intro i s t h
  obtain ⟨_, _, _, _, _, -, -, rfl⟩ := exec_next_stepped h
  exact ⟨rfl, rfl, rfl, rfl, rfl, rfl, rfl, PerPlayer.get_set_other _ _ _,
    PerPlayer.get_set_other _ _ _⟩

/-! ### The load errors (R292) -/

/-- The host reads a load error exactly when the load failed with it, and then the state is the one
before the load. -/
theorem loadOutcome_eq_loadError {s t : State} {r : Except LoadError State} {e : LoadError} :
    loadOutcome s r = (t, .loadError e) ↔ r = .error e ∧ t = s := by
  cases r with
  | ok u => simp [loadOutcome]
  | error e' => simp [loadOutcome, and_comm, eq_comm]

/-- Settles O46: at a loaded slot the length decides which of the two errors is raised. -/
theorem loadErrorsLeaveTheStateUnchanged : Obligations.LoadErrorsLeaveTheStateUnchanged := by
  intro is offset k s
  obtain ⟨hlong, hoccupied, -⟩ := loadProgramCopiesAndSeeds is offset k s
  refine ⟨hlong, fun hloaded => ?loaded, fun t e h => ?unchanged⟩
  case loaded =>
    rcases Nat.lt_or_ge s.cfg.coreSize is.length with hlt | hfits
    · exact ⟨_, hlong hlt, fun hfits => absurd hlt (Nat.not_lt.2 hfits)⟩
    · exact ⟨_, hoccupied hfits hloaded, fun _ => rfl⟩
  case unchanged =>
    rw [perform_load] at h
    exact (loadOutcome_eq_loadError.1 (Host.Outcome.next.inj h)).2

/-! ### The faults that the invariant rules out (R295, R63) -/

/-- The one observer that can fault is `peek` outside the core (log 11). -/
theorem observe_total {q : Query} {s : State} (hpeek : ∀ a, q = .peek a → a < s.cfg.coreSize) :
    ∃ r, observe q s = .next r := by
  cases q with
  | peek a => exact ⟨_, if_pos (hpeek a rfl)⟩
  | roundState | currentCycle | isLoaded | processCount | report => exact ⟨_, rfl⟩

/-- Under the invariant the one command that can fault is `peek` outside the core: a load answers
with its error, and a cycle finds a process for every loaded player. -/
theorem perform_total {c : Command} {s : State} (hinv : s.Inv)
    (hpeek : ∀ a, c = .observe (.peek a) → a < s.cfg.coreSize) :
    ∃ t r, perform c s = .next (t, r) := by
  cases c with
  | reset | loadProgram | loadBinary | clearReports => exact ⟨_, _, rfl⟩
  | executeCycle =>
    obtain ⟨t, hcycle⟩ := executeCycle_total hinv
    exact ⟨t, _, perform_executeCycle_eq_next.2 ⟨hcycle, rfl⟩⟩
  | observe q =>
    obtain ⟨r, hr⟩ := observe_total fun a hq => hpeek a (congrArg Command.observe hq)
    exact ⟨s, r, perform_observe hr⟩

theorem State.AsksInCore.peek_lt {s : State} (h : s.AsksInCore) {a : Nat}
    (hpeek : (nextCommand s).1 = .observe (.peek a)) : a < s.cfg.coreSize := by
  rwa [State.AsksInCore, hpeek] at h

/-- Settles O51: the invariant does not speak of the pending commands, so it holds where the next
command is performed. -/
theorem noStepFaultsUnderTheInvariant : Obligations.NoStepFaultsUnderTheInvariant := by
  intro s hinv hasks
  have hinv' : ({ s with pending := (nextCommand s).2 } : State).Inv := hinv
  obtain ⟨u, r, hperform⟩ := perform_total hinv' fun _ hpeek => hasks.peek_lt hpeek
  exact ⟨_, step_eq_next.2 ⟨u, r, hperform, rfl⟩⟩

/-! ### Construction (R293, R330) -/

theorem construct_of_legal {size : Nat} (cycles procs : Nat) (base : IndirectBase)
    (hpos : 0 < size) (hle : size ≤ 2 ^ 32) :
    construct size cycles procs base =
      .ok (State.resetWith ⟨size, cycles, procs, base, hpos, hle⟩) := by
  rw [construct, dif_pos hpos, dif_pos hle]

/-- Settles O47: the two bounds on the size are the only checks of construction. -/
theorem constructionSucceedsForEveryLegalSize :
    Obligations.ConstructionSucceedsForEveryLegalSize :=
  ⟨fun _ _ _ => rfl, fun _ cycles procs base hpos hle =>
    ⟨_, construct_of_legal cycles procs base hpos hle, rfl, rfl, rfl, rfl, rfl⟩⟩

end Sys2Proof.Machine

/-! SUPPORT. Proof of the statement of `95_test_vectors.md` about written out records (1.4, 2.2,
2.9). -/

namespace Sys2Proof

/-! ### The records of the test vectors (R98, R99) -/

/-- Settles O4: each record is the encoding of its Instruction, whose values fit four bytes, so
`decode_eq_ok_iff` reads the Instruction back. -/
theorem writtenOutRecordsDecode : Obligations.WrittenOutRecordsDecode := by
  refine ⟨decode_eq_ok_iff.2 ⟨?blt, ?bltFits⟩, decode_eq_ok_iff.2 ⟨?add, ?addFits⟩,
    decode_eq_ok_iff.2 ⟨?jmp, ?jmpFits⟩, decode_eq_ok_iff.2 ⟨?frk, ?frkFits⟩⟩
  case blt | add | jmp | frk => decide
  case bltFits | addFits | jmpFits | frkFits => decide

end Sys2Proof
